-- ==== Sys2Proof/Word.lean ====
section
/-! DEFINITION. The widths of PSEQ's words (spec/10_state.md R20, spec/20_memory.md R51, R52, spec/30_encoding.md R71)
and the two one-bit latches that are names, not numbers (`DIR`, `SUB`). -/

namespace Sys2Proof

/-- A 32-bit value: the operand field of a command (R71) and the registers `DWELL`, `TIMER`, `REMAIN` (R20). -/
abbrev Word := BitVec 32

/-- One phase pattern, the word of the pattern space and of the line space: bit `k` is line `k` (R51, R53). -/
abbrev Pattern := BitVec 4

/-- A physical word address of the pattern space (R52). -/
abbrev RomAddr := BitVec 5

/-- A command word `{op[34:32], arg[31:0]}` (R71). -/
abbrev CommandWord := BitVec 35

/-- The direction of a step: 0 Forward, 1 Reverse (R76, R94). -/
inductive Direction where
  | forward
  | reverse
deriving DecidableEq, Repr, Inhabited

/-- The sub-state of a move at the tick level: 0 EMIT, 1 WAIT (R34). -/
inductive SubState where
  | emit
  | wait
deriving DecidableEq, Repr, Inhabited

end Sys2Proof
end

