-- ==== Sys2Proof/Config.lean ====
section
/-! DEFINITION. What the spec leaves open (spec/00_scope.md R7, spec/92_eei_decisions.md) and what it calls unspecified
(spec/10_state.md R39): constants with no body, so that no proof can lean on a value of theirs. -/

namespace Sys2Proof.Config

/-- `ROM`, the contents of the pattern space, by physical word address (R52, R54; OPEN, D11). Only the 14 addresses of
the three tables are ever read (`Machine.memRead`); at the other 18 nothing exposes what this constant is. Log 4. -/
opaque rom : RomAddr → Pattern

/-- `BASE_DWELL` in ticks (R7; OPEN, D8). The bound is the spec's `BASE_DWELL * 100 < 2^32`, that is
`BASE_DWELL < 42949673`. Log 5. -/
opaque baseDwell : Fin 42949673

/-- `TICK_PERIOD`, seconds per tick, a positive real (R7, R106; OPEN, D8). "appears in no state rule"
(spec/93_implementation_defined.md U3): no register and no tick depends on it, so its being noncomputable keeps nothing from
running. Log 6. -/
noncomputable opaque tickPeriod : { seconds : ℝ // 0 < seconds }

/-! The values the eight unspecified registers take at the `n`-th reset (R39, R180). DESIGN CHOICE, log 3. -/

/-- `MODE` after the `n`-th reset: unspecified (R39). -/
opaque unspecMode : Nat → BitVec 2
/-- `PHASE` after the `n`-th reset: unspecified (R39). -/
opaque unspecPhase : Nat → BitVec 3
/-- `DWELL` after the `n`-th reset: unspecified (R39). -/
opaque unspecDwell : Nat → Word
/-- `TIMER` after the `n`-th reset: unspecified (R39). -/
opaque unspecTimer : Nat → Word
/-- `REMAIN` after the `n`-th reset: unspecified (R39). -/
opaque unspecRemain : Nat → Word
/-- `DIR` after the `n`-th reset: unspecified (R39). -/
opaque unspecDir : Nat → Direction
/-- `REST` after the `n`-th reset: unspecified (R39). -/
opaque unspecRest : Nat → Bool
/-- `SUB` after the `n`-th reset: unspecified (R39). -/
opaque unspecSub : Nat → SubState

end Sys2Proof.Config
end

