-- ==== Sys2Proof/Machine/State.lean ====
section
/-! DEFINITION. The state of PSEQ as plain data: the registers of spec/10_state.md R20, the ghost trace (R41), and what
the host will drive on the block's inputs (spec/30_encoding.md R70; log 2). Also the reasons a tick can stop. -/

namespace Sys2Proof.Machine

/-- An event of the trace (spec/00_scope.md section 5.3). -/
inductive Event where
  /-- `W(v)`: the four lines were written with `v`, even when `v` was already there (R55). -/
  | W (v : Pattern)
  /-- `H(d)`: a hold of at least `d` ticks (R100). -/
  | H (d : Nat)
deriving DecidableEq, Repr

/-- What the host does next at the command port (R70, R196; log 2). -/
inductive HostMove where
  /-- One tick with `cmd_valid = 0`. -/
  | idle
  /-- `cmd_valid = 1` with this word on `cmd`, held unchanged until the tick of acceptance. -/
  | present (w : CommandWord)
deriving DecidableEq, Repr

/-- The block's errors (spec/60_exceptions.md R150). -/
inductive CmdError where
  /-- `mode >= 3` at CONSTRUCT (R151). -/
  | configurationError
  /-- `CONFIGURED = 0` at SET_SPEED, ONE_STEP, STEP_N or STEP_ANGLE (R153). -/
  | notConfigured
  /-- A reserved encoding (R154). -/
  | illegalCommand
deriving DecidableEq, Repr

/-- Why the machine stops with a fault. -/
inductive Fault where
  /-- A pattern read at one of the 18 unreachable addresses, "a model fault" (R59). Raised by an EMIT tick whose
  `{MODE, PHASE}` is no row of a table; no reachable state has one (R56). Safe: it stops where the spec gives no value. -/
  | unreachablePatternAddress
deriving DecidableEq, Repr

/-- Why the machine refuses. -/
inductive Refusal where
  /-- The instruction has no meaning yet. Raised by an arm of `exec` only; no arm raises it. Safe: it stops. -/
  | notModelled (mnemonic : String)
deriving DecidableEq, Repr

/-- The state of the block at a tick boundary. -/
structure State where
  /-- `CONFIGURED` (R23). -/
  configured : Bool
  /-- `MODE` (R24). -/
  mode : BitVec 2
  /-- `PHASE` (R25). -/
  phase : BitVec 3
  /-- `DWELL` (R26). -/
  dwell : Word
  /-- `LINES` (R27). -/
  lines : Pattern
  /-- `STATUS` (R28). -/
  status : BitVec 2
  /-- `BUSY` (R29). -/
  busy : Bool
  /-- `TIMER` (R30). -/
  timer : Word
  /-- `REMAIN` (R31). -/
  remain : Word
  /-- `DIR` (R32). -/
  dir : Direction
  /-- `REST` (R33). -/
  rest : Bool
  /-- `SUB` (R34). -/
  sub : SubState
  /-- `TRACE`, ghost (R41), oldest event first. -/
  trace : List Event
  /-- The model's own: the levels of `rst` at the coming ticks, head first, 0 after the end (R70; log 2). -/
  rstIn : List Bool
  /-- The model's own: the host's coming moves at the command port, head first, `cmd_valid = 0` after the end (log 2). -/
  cmdIn : List HostMove
  /-- The model's own: how many resets have happened, the counter of the free values (log 3). -/
  resets : Nat
deriving DecidableEq, Repr

/-- The machine right after reset (R39, R180). The unspecified registers hold free values (log 3); the host has nothing
scheduled (log 2). -/
def State.reset : State where
  configured := false
  mode := Config.unspecMode 0
  phase := Config.unspecPhase 0
  dwell := Config.unspecDwell 0
  lines := 0#4
  status := 0#2
  busy := false
  timer := Config.unspecTimer 0
  remain := Config.unspecRemain 0
  dir := Config.unspecDir 0
  rest := Config.unspecRest 0
  sub := Config.unspecSub 0
  trace := []
  rstIn := []
  cmdIn := []
  resets := 1

/-- The block's outputs (R40, R70). `lines` goes to the motor driver stage, the others to the host. -/
structure Outputs where
  cmdReady : Bool
  busy : Bool
  configured : Bool
  status : BitVec 2
  phase : BitVec 3
  lines : Pattern
deriving DecidableEq, Repr

/-- The command-level state, what two levels of the spec must agree on (R20, R193). -/
structure CommandView where
  configured : Bool
  mode : BitVec 2
  phase : BitVec 3
  dwell : Word
  lines : Pattern
  status : BitVec 2
  trace : List Event
deriving DecidableEq, Repr

end Sys2Proof.Machine
end

