-- ==== Sys2Proof/Machine/Flags.lean ====
section
/-! DEFINITION. The block has no condition codes (spec/10_state.md R35); its status bits are `STATUS` (spec/60_exceptions.md
R150), `BUSY` and `CONFIGURED`, seen on the ports of R40. -/

namespace Sys2Proof.Machine

/-- The code of OK (R150). -/
def okCode : BitVec 2 := 0#2

/-- The code of each error (R150). -/
def CmdError.code : CmdError → BitVec 2
  | .configurationError => 1#2
  | .notConfigured => 2#2
  | .illegalCommand => 3#2

/-- `STATUS <- 0`: the command completes normally (R150). -/
def setOk (s : State) : State := { s with status := okCode }

/-- `cmd_ready = NOT BUSY` (R70). -/
def State.cmdReady (s : State) : Bool := !s.busy

/-- The block's output ports, "each the current value of a register" (R40). -/
def State.outputs (s : State) : Outputs where
  cmdReady := s.cmdReady
  busy := s.busy
  configured := s.configured
  status := s.status
  phase := s.phase
  lines := s.lines

/-- The registers and the trace that the command level speaks of (R20, R193). -/
def State.commandView (s : State) : CommandView where
  configured := s.configured
  mode := s.mode
  phase := s.phase
  dwell := s.dwell
  lines := s.lines
  status := s.status
  trace := s.trace

end Sys2Proof.Machine
end

