-- ==== Sys2Proof/Machine/Operands.lean ====
section
/-! DEFINITION. What the commands compute from their operands: the speed mapping (spec/42_config_commands.md R113), the
magnitude and sign of a count or an angle (spec/30_encoding.md R77, R78), the angle-to-steps rounding
(spec/43_step_commands.md R127). All of it on numbers, narrowed once at the end (R116, R131). -/

namespace Sys2Proof.Machine

/-- `abs(x)` in 32 unsigned bits (R77): for a 32-bit operand it lies in `0 .. 2^31` and always fits. -/
def magnitude (x : Int) : Word := BitVec.ofNat 32 x.natAbs

/-- "sign of `count` selects Forward (≥0) or Reverse (<0)" (R77, R78). -/
def signDirection (x : Int) : Direction := if x < 0 then .reverse else .forward

/-- `STEPS_PER_REV`, the same in every mode (R6, R194; log 11). -/
def stepsPerRev : Nat := 2048

/-- One step in units of 1/256 degree: `360 * 256 / STEPS_PER_REV`, which is 45 (R78, R127). -/
def unitsPerStep : Nat := 360 * 256 / stepsPerRev

/-- The whole steps nearest to an angle of `a` units: `(a + 22) div 45` (R127). -/
def nearestSteps (a : Nat) : Nat := (a + unitsPerStep / 2) / unitsPerStep

/-- The step count of STEP_ANGLE (R126, R127). -/
def angleSteps (angle : Int) : Word := BitVec.ofNat 32 (nearestSteps angle.natAbs)

/-- `(BASE_DWELL * 100) div min(percent, 100)`, for `percent >= 1` (R113). -/
def dwellTicks (percent : Int) : Nat := (Config.baseDwell.val * 100) / min percent.toNat 100

/-- The value SET_SPEED writes to `DWELL` for `percent >= 1` (R113). -/
def dwellOfPercent (percent : Int) : Word := BitVec.ofNat 32 (dwellTicks percent)

/-- `BASE_DWELL` as a value of `DWELL` (R26, R110). -/
def baseDwell : Word := BitVec.ofNat 32 Config.baseDwell.val

end Sys2Proof.Machine
end

