-- ==== Sys2Proof/Machine/Ops.lean ====
section
/-! DEFINITION. The operations the commands share: the pattern space (spec/20_memory.md), the line write (R55), the index
counter (spec/40_phase_table.md), the start of a hold (spec/41_dwell_timer.md), STEP (spec/43_step_commands.md R120), the
acceptance of a move (spec/70_reset_and_hazards.md R190), raising an error (spec/60_exceptions.md R156) and reset (R180). -/

namespace Sys2Proof.Machine

/-! ### The pattern space -/

/-- `LEN(m)`, "defined only for `m` in 0..2" (R91; log 11). -/
def tableLen (m : BitVec 2) : Option Nat :=
  match m.toNat with
  | 0 => some 4
  | 1 => some 4
  | 2 => some 6
  | _ => none

/-- `(m, i)` is the logical address of a word: `m` in 0..2 and `i < LEN(m)` (R51). -/
def inTable (m : BitVec 2) (i : BitVec 3) : Bool :=
  match tableLen m with
  | none => false
  | some len => decide (i.toNat < len)

/-- `rom_addr(m, i) = {m[1:0], i[2:0]}` (R52). -/
def romAddr (m : BitVec 2) (i : BitVec 3) : RomAddr := m ++ i

/-- `MemRead(a, 1)` on the pattern space (R52): the word at one of the 14 addresses of R58; the 18 others hold no value
(R59). -/
def memRead (a : RomAddr) : Option Pattern :=
  if inTable (a.extractLsb' 3 2) (a.extractLsb' 0 3) then some (Config.rom a) else none

/-- `ROM[m][i]` (R52). -/
def romRead (m : BitVec 2) (i : BitVec 3) : Option Pattern := memRead (romAddr m i)

/-- READ: `ROM[MODE][PHASE]` (R93). -/
def readPattern (s : State) : Option Pattern := romRead s.mode s.phase

/-- SELECT: the value `MODE` takes for a mode operand, or none for an unrecognized one (R90). The whole operand counts;
it is not cut to two bits first (spec/93_implementation_defined.md U10). -/
def selectTable (mode : Nat) : Option (BitVec 2) :=
  if 2 < mode then none else some (BitVec.ofNat 2 mode)

/-! ### Lines, index, hold -/

/-- `LineWrite(v)` (R55). -/
def lineWrite (v : Pattern) (s : State) : State :=
  { s with lines := v, trace := s.trace ++ [.W v] }

/-- The index one step on from `p` in a table of `len` rows: the two-armed rule of R94. -/
def nextIndex (len : Nat) (d : Direction) (p : BitVec 3) : BitVec 3 :=
  match d with
  | .forward => if p.toNat = len - 1 then 0#3 else p + 1#3
  | .reverse => if p.toNat = 0 then BitVec.ofNat 3 (len - 1) else p - 1#3

/-- ADVANCE (R94). None where `LEN(MODE)` is not defined. -/
def advance (d : Direction) (s : State) : Option State :=
  match tableLen s.mode with
  | none => none
  | some len => some { s with phase := nextIndex len d s.phase }

/-- `Wait(uint(DWELL))` started: the hold's event and the timer's load (R100, R105, R191). -/
def startHold (s : State) : State :=
  { s with timer := s.dwell, trace := s.trace ++ [.H s.dwell.toNat] }

/-- STEP (R120): write the pattern at the index as it is, move the index, hold, in that order
(spec/90_conflicts.md C1). None where the pattern address is unreachable (R59). -/
def stepMicro (d : Direction) (s : State) : Option State :=
  match readPattern s with
  | none => none
  | some v =>
    match advance d (lineWrite v s) with
    | none => none
    | some t => some (startHold t)

/-! ### Errors and the acceptance of a move -/

/-- `raise <Error>` (R156), the one operation that takes an error: `STATUS <- code`, and no other register, line or trace
element changes. There is no saved state, vector or handler, and no return: "Recovery is the next command" (R157). -/
def raise (e : CmdError) (s : State) : State := { s with status := e.code }

/-- The tick that accepts a move of `n` steps (R190 (b)): the latches are loaded; a move of at least one step sets `BUSY`
and begins with an EMIT; a move of none is complete, its closing de-energize included (R128). -/
def acceptMove (n : Word) (d : Direction) (rest : Bool) (s : State) : State :=
  let t := { setOk s with remain := n, dir := d, rest := rest }
  if n = 0#32 then (if rest then lineWrite 0#4 t else t)
  else { t with busy := true, sub := .emit }

/-! ### Reset -/

/-- A tick with `rst = 1` (R180): the four registers of R39 take their reset values, the trace is emptied, and the other
eight become unspecified, here the free values of this reset (log 3). -/
def resetTick (s : State) : State :=
  { s with
    configured := false
    busy := false
    lines := 0#4
    status := okCode
    trace := []
    mode := Config.unspecMode s.resets
    phase := Config.unspecPhase s.resets
    dwell := Config.unspecDwell s.resets
    timer := Config.unspecTimer s.resets
    remain := Config.unspecRemain s.resets
    dir := Config.unspecDir s.resets
    rest := Config.unspecRest s.resets
    sub := Config.unspecSub s.resets
    resets := s.resets + 1 }

end Sys2Proof.Machine
end

