-- ==== Sys2Proof/Machine/Configure.lean ====
section
/-! DEFINITION. The configuration commands CONSTRUCT and SET_SPEED (spec/42_config_commands.md). Both complete in the tick
of their acceptance. -/

namespace Sys2Proof.Machine

/-- CONSTRUCT: R110 for a recognized mode (on a configured block too, R117), R111 otherwise. -/
def execConstruct (mode : Nat) (s : State) : Host.Outcome State Fault Refusal :=
  match selectTable mode with
  | none => .next (raise .configurationError s)
  | some m =>
    .next (setOk { lineWrite 0#4 { s with mode := m } with
      phase := 0#3, dwell := baseDwell, configured := true })

/-- SET_SPEED: R112, with R113 for `percent >= 1` and R114 otherwise. -/
def execSetSpeed (percent : Int) (s : State) : Host.Outcome State Fault Refusal :=
  if s.configured = false then .next (raise .notConfigured s)
  else if 1 ≤ percent then .next (setOk { s with dwell := dwellOfPercent percent })
  else .next (setOk (lineWrite 0#4 s))

end Sys2Proof.Machine
end

