-- ==== Sys2Proof/Machine/Move.lean ====
section
/-! DEFINITION. The movement commands ONE_STEP, STEP_N, STEP_ANGLE (spec/43_step_commands.md) at the tick of their
acceptance (spec/70_reset_and_hazards.md R190 (b)). The EMIT and WAIT ticks of Machine/Tick.lean carry the move on. -/

namespace Sys2Proof.Machine

/-- ONE_STEP (R123): `MOVE(1, dir, 0)`. -/
def execOneStep (d : Direction) (s : State) : Host.Outcome State Fault Refusal :=
  if s.configured = false then .next (raise .notConfigured s)
  else .next (acceptMove 1#32 d false s)

/-- STEP_N (R124): `MOVE(abs(count), sign, 0)`. -/
def execStepN (count : Int) (s : State) : Host.Outcome State Fault Refusal :=
  if s.configured = false then .next (raise .notConfigured s)
  else .next (acceptMove (magnitude count) (signDirection count) false s)

/-- STEP_ANGLE (R126): `MOVE((abs(angle) + 22) div 45, sign, 1)`. -/
def execStepAngle (angle : Int) (s : State) : Host.Outcome State Fault Refusal :=
  if s.configured = false then .next (raise .notConfigured s)
  else .next (acceptMove (angleSteps angle) (signDirection angle) true s)

end Sys2Proof.Machine
end

