-- ==== Sys2Proof/Syntax.lean ====
section
/-! DEFINITION. The commands of PSEQ (spec/30_encoding.md R73), one constructor per row of spec/opcode_table.json,
each with its operand as R84 gives it: a natural number, an integer, a direction. -/

namespace Sys2Proof

/-- A decoded command (R73, R84). The operands are the numbers `uint(arg)`, `sint(arg)`, `arg[0]` (log 9);
`Instr.wf` says which of them a command word can carry. -/
inductive Instr where
  /-- CONSTRUCT, `op = 0`: `mode = uint(arg)` (R74). -/
  | construct (mode : Nat)
  /-- SET_SPEED, `op = 1`: `percent = sint(arg)` (R75). -/
  | setSpeed (percent : Int)
  /-- ONE_STEP, `op = 2`, `arg[31:1] = 0`: `dir = arg[0]` (R76). -/
  | oneStep (dir : Direction)
  /-- STEP_N, `op = 3`: `count = sint(arg)` (R77). -/
  | stepN (count : Int)
  /-- STEP_ANGLE, `op = 4`: `angle = sint(arg)` in units of 1/256 degree (R78). -/
  | stepAngle (angle : Int)
  /-- SHUTDOWN, `op = 5`: `arg` is ignored (R79). -/
  | shutdown
  /-- The reserved `op = 6`, `arg` ignored (R80). -/
  | reserved6
  /-- The reserved `op = 7`, `arg` ignored (R80). -/
  | reserved7
deriving DecidableEq, Repr

end Sys2Proof
end

