-- ==== Sys2Proof/WellFormed.lean ====
section
/-! DEFINITION. Which commands a command word can carry: the ranges of the operands (spec/30_encoding.md R74 to R78). -/

namespace Sys2Proof

/-- The range of `uint(arg)`: `0 .. 2^32 - 1` (R74). -/
def fitsUnsigned (n : Nat) : Bool := decide (n < 2 ^ 32)

/-- The range of `sint(arg)`: `-2^31 .. 2^31 - 1` (R75). -/
def fitsSigned (z : Int) : Bool := decide (-2 ^ 31 ≤ z) && decide (z < 2 ^ 31)

/-- The command's operand fits the 32-bit `arg` field (R74 to R79). -/
def Instr.wf : Instr → Bool
  | .construct mode => fitsUnsigned mode
  | .setSpeed percent => fitsSigned percent
  | .oneStep _ => true
  | .stepN count => fitsSigned count
  | .stepAngle angle => fitsSigned angle
  | .shutdown => true
  | .reserved6 => true
  | .reserved7 => true

end Sys2Proof
end

