-- ==== Sys2Proof/Decode.lean ====
section
/-! DEFINITION. Decoding a command word (spec/30_encoding.md R71, R73, R84), total on all `2^35` words, and the encoder
written from the same table (R73, R83). -/

namespace Sys2Proof

/-- Why a word is no row of the opcode table. -/
inductive DecodeReject where
  /-- `op = 2` with `arg[31:1] != 0` (R81): the spare bits as they stand. Raised by `decode`; the tick that accepts such
  a word takes IllegalCommand (R154). Safe: the spec gives the word this one meaning. -/
  | spareDirectionBits (bits : BitVec 31)
deriving DecidableEq, Repr

/-- What `decode` answers: a command, or a rejection by name. -/
inductive Decoded where
  | instr (i : Instr)
  | reject (r : DecodeReject)
deriving DecidableEq, Repr

/-- `cmd[34:32]` (R71). -/
def opField (w : CommandWord) : BitVec 3 := w.extractLsb' 32 3

/-- `cmd[31:0]` (R71). -/
def argField (w : CommandWord) : Word := w.extractLsb' 0 32

/-- `arg[31:1]` (R76). -/
def spareBits (arg : Word) : BitVec 31 := arg.extractLsb' 1 31

/-- `arg[0]` as a direction: 0 Forward, 1 Reverse (R76). -/
def directionOfBit (b : Bool) : Direction := if b then .reverse else .forward

/-- R84, the decoding procedure. It reads no state (R82). -/
def decode (w : CommandWord) : Decoded :=
  let arg := argField w
  match (opField w).toNat with
  | 0 => .instr (.construct arg.toNat)
  | 1 => .instr (.setSpeed arg.toInt)
  | 2 =>
    if spareBits arg = 0 then .instr (.oneStep (directionOfBit (arg.getLsbD 0)))
    else .reject (.spareDirectionBits (spareBits arg))
  | 3 => .instr (.stepN arg.toInt)
  | 4 => .instr (.stepAngle arg.toInt)
  | 5 => .instr .shutdown
  | 6 => .instr .reserved6
  | _ => .instr .reserved7     -- `op` is three bits: this is 7

/-- A direction as `arg` (R83): Forward `0x00000000`, Reverse `0x00000001`. -/
def directionArg : Direction → Word
  | .forward => 0#32
  | .reverse => 1#32

/-- The word `{op, arg}` (R71). -/
def packWord (op : BitVec 3) (arg : Word) : CommandWord := op ++ arg

/-- The `op` of each command (R73). -/
def Instr.op : Instr → BitVec 3
  | .construct _ => 0#3
  | .setSpeed _ => 1#3
  | .oneStep _ => 2#3
  | .stepN _ => 3#3
  | .stepAngle _ => 4#3
  | .shutdown => 5#3
  | .reserved6 => 6#3
  | .reserved7 => 7#3

/-- The `arg` of each command (R74 to R79, R83). SHUTDOWN's canonical `arg` is 0 (R83); the reserved words' is 0 as well,
the model's choice (log 8). -/
def Instr.arg : Instr → Word
  | .construct mode => BitVec.ofNat 32 mode
  | .setSpeed percent => BitVec.ofInt 32 percent
  | .oneStep dir => directionArg dir
  | .stepN count => BitVec.ofInt 32 count
  | .stepAngle angle => BitVec.ofInt 32 angle
  | .shutdown => 0#32
  | .reserved6 => 0#32
  | .reserved7 => 0#32

/-- The encoder: the word of a well-formed command (R83). -/
def encode (i : Instr) : CommandWord := packWord i.op i.arg

/-- The word among those that decode alike which the encoder gives: `arg` cleared where it is ignored, `op >= 5`
(R79, R80, R83). -/
def canonicalWord (w : CommandWord) : CommandWord :=
  if 5 ≤ (opField w).toNat then packWord (opField w) 0#32 else w

/-- The command word that a table word of `nbits` bits stands for: `none` where a bit above bit 34 is set, since a command
is 35 bits (R71). Log 10. -/
def wordOfTable (nbits w : Nat) : Option CommandWord :=
  let v := w % 2 ^ nbits
  if v < 2 ^ 35 then some (BitVec.ofNat 35 v) else none

/-- The command this decoder reads from a table word. -/
def decodeTableWord (nbits w : Nat) : Option Instr :=
  match wordOfTable nbits w with
  | none => none
  | some cmd =>
    match decode cmd with
    | .instr i => some i
    | .reject _ => none

end Sys2Proof
end

