-- ==== Sys2Proof/Machine/Reserved.lean ====
section
/-! DEFINITION. The reserved encodings (spec/30_encoding.md R80, R81): each takes IllegalCommand (spec/60_exceptions.md R154). -/

namespace Sys2Proof.Machine

/-- A word with `op = 6` (R80). -/
def execReserved6 (s : State) : Host.Outcome State Fault Refusal :=
  .next (raise .illegalCommand s)

/-- A word with `op = 7` (R80). -/
def execReserved7 (s : State) : Host.Outcome State Fault Refusal :=
  .next (raise .illegalCommand s)

/-- A word the decoder rejects: `op = 2` with spare bits set (R81). It is no row of the opcode table (log 7). -/
def takeReject (r : DecodeReject) (s : State) : Host.Outcome State Fault Refusal :=
  match r with
  | .spareDirectionBits _ => .next (raise .illegalCommand s)

end Sys2Proof.Machine
end

