-- ==== Sys2Proof/Machine/Shutdown.lean ====
section
/-! DEFINITION. The de-energize command SHUTDOWN (spec/44_shutdown.md). -/

namespace Sys2Proof.Machine

/-- SHUTDOWN (R140): "writes all-zero to all four lines unconditionally"; what it leaves alone is R141. -/
def execShutdown (s : State) : Host.Outcome State Fault Refusal :=
  .next (setOk (lineWrite 0#4 s))

end Sys2Proof.Machine
end

