-- ==== Sys2Proof/Machine/Dispatch.lean ====
section
/-! DEFINITION. What the tick that accepts a command does (spec/70_reset_and_hazards.md R190): one arm per row of the opcode
table. -/

namespace Sys2Proof.Machine

def exec (i : Instr) (s : State) : Host.Outcome State Fault Refusal :=
  match i with
  | .construct mode => Sys2Proof.Machine.execConstruct mode s
  | .setSpeed percent => Sys2Proof.Machine.execSetSpeed percent s
  | .oneStep dir => Sys2Proof.Machine.execOneStep dir s
  | .stepN count => Sys2Proof.Machine.execStepN count s
  | .stepAngle angle => Sys2Proof.Machine.execStepAngle angle s
  | .shutdown => Sys2Proof.Machine.execShutdown s
  | .reserved6 => Sys2Proof.Machine.execReserved6 s
  | .reserved7 => Sys2Proof.Machine.execReserved7 s

end Sys2Proof.Machine
end

