-- ==== Sys2Proof/Machine/Port.lean ====
section
/-! DEFINITION. The command port (spec/30_encoding.md R70, R72) and the host behind it (spec/70_reset_and_hazards.md R196;
log 2): what the inputs show at a tick, whether a command is accepted, and what the host drives next. -/

namespace Sys2Proof.Machine

/-- The level of `rst` at this tick (R70). -/
def State.rst (s : State) : Bool := s.rstIn.headD false

/-- The word on `cmd` where `cmd_valid = 1` at this tick, none where `cmd_valid = 0` (R70). -/
def State.presented (s : State) : Option CommandWord :=
  match s.cmdIn with
  | .present w :: _ => some w
  | .idle :: _ => none
  | [] => none

/-- The command accepted at this tick, if any: `rst = 0`, `cmd_valid = 1` and `cmd_ready = 1` (R70). -/
def State.accepted (s : State) : Option CommandWord :=
  if s.rst = false ∧ s.cmdReady = true then s.presented else none

/-- The host's moves after a tick: a tick of `cmd_valid = 0` is over; a presented word goes when it has been accepted and
is held unchanged until then (R70, R196 (b)). -/
def hostMoves (accepted : Bool) (q : List HostMove) : List HostMove :=
  match q with
  | [] => []
  | .idle :: rest => rest
  | .present w :: rest => if accepted then rest else .present w :: rest

/-- The host's side of a tick: the inputs move on; no register of the block changes. -/
def State.portTick (s : State) : State :=
  { s with rstIn := s.rstIn.tail, cmdIn := hostMoves s.accepted.isSome s.cmdIn }

end Sys2Proof.Machine
end

