-- ==== Sys2Proof/Machine/Tick.lean ====
section
/-! DEFINITION. The ticks of a move in flight (spec/70_reset_and_hazards.md R191, R192). -/

namespace Sys2Proof.Machine

/-- An EMIT tick (R191): STEP, its wait started in the same tick, one step fewer to go. -/
def emitTick (s : State) : Host.Outcome State Fault Refusal :=
  match stepMicro s.dir s with
  | none => .fault .unreachablePatternAddress
  | some t => .next { t with remain := t.remain - 1#32, sub := .wait }

/-- The end of a move (R192, R128): the closing de-energize if `REST = 1`, and `BUSY <- 0`. -/
def finishMove (s : State) : State :=
  { (if s.rest then lineWrite 0#4 s else s) with busy := false }

/-- A WAIT tick (R192). -/
def waitTick (s : State) : State :=
  if s.timer ≠ 0#32 then { s with timer := s.timer - 1#32 }
  else if s.remain ≠ 0#32 then { s with sub := .emit }
  else finishMove s

/-- A tick with `rst = 0` and `BUSY = 1`. -/
def busyTick (s : State) : Host.Outcome State Fault Refusal :=
  match s.sub with
  | .emit => emitTick s
  | .wait => .next (waitTick s)

end Sys2Proof.Machine
end

