-- ==== Sys2Proof/Machine/Step.lean ====
section
/-! DEFINITION. One step of the machine is one tick (spec/70_reset_and_hazards.md R180, R190 to R192). -/

namespace Sys2Proof.Machine

/-- A tick that accepts the word `w`: decode comes first (R158), a reserved word is taken (R81), a command is executed. -/
def accept (w : CommandWord) (s : State) : Host.Outcome State Fault Refusal :=
  match decode w with
  | .reject r => takeReject r s
  | .instr i => exec i s

/-- A tick. Reset has priority over everything (R180); a move in flight goes on whatever the port shows (R72); an idle block
accepts what the host presents (R190). -/
def step (s : State) : Host.Outcome State Fault Refusal :=
  if s.rst then .next (resetTick s.portTick)
  else if s.busy then busyTick s.portTick
  else
    match s.accepted with
    | none => .next s.portTick
    | some w => accept w s.portTick

/-- `s` with the table word `w` of `nbits` bits presented at the command port at the coming tick, `rst = 0` and the block
ready to accept (log 10). -/
def State.withFetchWord (s : State) (nbits w : Nat) : State :=
  { s with
    busy := false
    rstIn := false :: s.rstIn.tail
    cmdIn := .present (BitVec.ofNat 35 (w % 2 ^ nbits)) :: s.cmdIn }

end Sys2Proof.Machine
end

