-- ==== Sys2Proof/Machine/CommandLevel.lean ====
section
/-! DEFINITION. The command level (spec/00_scope.md R10): "each accepted command is one atomic transition". The three moves
run whole (spec/43_step_commands.md R121 to R126); every other command is the same at both levels (R190 (a)). The tick-level
`step` and this agree as R193 says. -/

namespace Sys2Proof.Machine

/-- The loop of MOVE, `n` more iterations (R121): `REMAIN <- REMAIN - 1; STEP(DIR)`. -/
def moveLoop : Nat → State → Option State
  | 0, s => some s
  | n + 1, s =>
    match stepMicro s.dir { s with remain := s.remain - 1#32 } with
    | none => none
    | some t => moveLoop n t

/-- MOVE(n, d, r) (R121). -/
def runMove (n : Word) (d : Direction) (rest : Bool) (s : State) : Option State :=
  let t := { s with remain := n, dir := d, rest := rest, busy := s.busy || decide (n ≠ 0#32) }
  match moveLoop n.toNat t with
  | none => none
  | some u => some (finishMove u)

/-- A move as a command: NotConfigured, or `STATUS <- 0` and MOVE (R123, R124, R126). -/
def commandMove (n : Word) (d : Direction) (rest : Bool) (s : State) : Host.Outcome State Fault Refusal :=
  if s.configured = false then .next (raise .notConfigured s)
  else
    match runMove n d rest (setOk s) with
    | none => .fault .unreachablePatternAddress
    | some t => .next t

/-- The step count, direction and rest flag of a movement command (R123, R124, R126); none for the other commands. -/
def moveOf (i : Instr) : Option (Word × Direction × Bool) :=
  match i with
  | .construct _ => none
  | .setSpeed _ => none
  | .oneStep d => some (1#32, d, false)
  | .stepN count => some (magnitude count, signDirection count, false)
  | .stepAngle angle => some (angleSteps angle, signDirection angle, true)
  | .shutdown => none
  | .reserved6 => none
  | .reserved7 => none

/-- The steps a command runs from `s`: those of its move if the block is configured, else none (R123, R124, R126, R153). -/
def moveLength (i : Instr) (s : State) : Nat :=
  match moveOf i with
  | none => 0
  | some (n, _, _) => if s.configured = false then 0 else n.toNat

/-- A command's whole effect as one transition (R10). -/
def command (i : Instr) (s : State) : Host.Outcome State Fault Refusal :=
  match i with
  | .construct mode => execConstruct mode s
  | .setSpeed percent => execSetSpeed percent s
  | .oneStep d => commandMove 1#32 d false s
  | .stepN count => commandMove (magnitude count) (signDirection count) false s
  | .stepAngle angle => commandMove (angleSteps angle) (signDirection angle) true s
  | .shutdown => execShutdown s
  | .reserved6 => execReserved6 s
  | .reserved7 => execReserved7 s

end Sys2Proof.Machine
end

