-- ==== Sys2Proof/Safety.lean ====
section
/-! DEFINITION. The terms claims are stated in: runs of ticks, the reset state (spec/70_reset_and_hazards.md R181), the
invariant of spec/10_state.md R38 and its extension to the ticks of a move, states alike but for registers that hold no
value (R39), and the closed form of a move (spec/43_step_commands.md R122). -/

namespace Sys2Proof.Machine

/-! ### Runs -/

/-- `k` ticks, stopping at the first fault or refusal. -/
def runTicks : Nat → State → Host.Outcome State Fault Refusal
  | 0, s => .next s
  | k + 1, s =>
    match step s with
    | .next t => runTicks k t
    | .fault r => .fault r
    | .refused r => .refused r

/-- An outcome with its next state, if any, seen through `f`. -/
def mapNext (f : State → State) (o : Host.Outcome State Fault Refusal) : Host.Outcome State Fault Refusal :=
  match o with
  | .next t => .next (f t)
  | .fault r => .fault r
  | .refused r => .refused r

/-- The host does not assert `rst` at the coming `k` ticks. -/
def NoReset (k : Nat) (s : State) : Prop := ∀ b ∈ s.rstIn.take k, b = false

/-- The states of the runs that begin right after a reset, whatever the host drives from then on. -/
inductive Reachable : State → Prop where
  | start (rstIn : List Bool) (cmdIn : List HostMove) : Reachable { State.reset with rstIn := rstIn, cmdIn := cmdIn }
  | tick {s t : State} : Reachable s → step s = .next t → Reachable t

/-! ### The reset state and the invariant -/

/-- `ResetState` (R181). -/
def ResetState (s : State) : Prop :=
  s.configured = false ∧ s.busy = false ∧ s.lines = 0#4 ∧ s.status = 0#2 ∧ s.trace = []

/-- `BASE_DWELL <= d <= 100 * BASE_DWELL` (R26, R38 INV4). -/
def dwellInRange (d : Word) : Prop :=
  Config.baseDwell.val ≤ d.toNat ∧ d.toNat ≤ 100 * Config.baseDwell.val

/-- `v` is a row of the table that mode `m` selects (R38 INV6). -/
def rowOfTable (m : BitVec 2) (v : Pattern) : Prop :=
  ∃ i : BitVec 3, romRead m i = some v

/-- The invariant of every command boundary (R38, INV1 to INV6). -/
structure BoundaryInv (s : State) : Prop where
  inv1 : s.busy = false
  inv2 : s.configured = true → s.mode.toNat ≤ 2
  inv3 : s.configured = true → ∃ len, tableLen s.mode = some len ∧ s.phase.toNat < len
  inv4 : s.configured = true → dwellInRange s.dwell
  inv5 : s.configured = false → s.lines = 0#4
  inv6 : s.lines = 0#4 ∨ (s.configured = true ∧ rowOfTable s.mode s.lines)

/-- The value the latest `W` event of a trace leaves on the lines, `0b0000` where there is none (R61). -/
def lastWrite (tr : List Event) : Pattern :=
  tr.foldl (fun v e => match e with | .W w => w | .H _ => v) 0#4

/-- The invariant of every tick: R38's INV2 to INV6 without INV1, and what holds of a move in flight. -/
structure Inv (s : State) : Prop where
  mode_legal : s.configured = true → s.mode.toNat ≤ 2
  phase_in_table : s.configured = true → ∃ len, tableLen s.mode = some len ∧ s.phase.toNat < len
  dwell_in_range : s.configured = true → dwellInRange s.dwell
  unconfigured_off : s.configured = false → s.lines = 0#4
  lines_row : s.lines = 0#4 ∨ (s.configured = true ∧ rowOfTable s.mode s.lines)
  lines_traced : s.lines = lastWrite s.trace
  busy_configured : s.busy = true → s.configured = true
  busy_ok : s.busy = true → s.status = 0#2
  remain_bounded : s.busy = true → s.remain.toNat ≤ 2 ^ 31
  emit_owes_step : s.busy = true → s.sub = .emit → s.remain ≠ 0#32
  hold_bounded : s.busy = true → s.sub = .wait → s.timer.toNat ≤ s.dwell.toNat

/-! ### Registers that hold no value -/

/-- `s` and `t` differ at most in registers that hold no value there: `MODE`, `PHASE`, `DWELL` while `CONFIGURED = 0`, the
in-flight registers outside a move, `TIMER` outside a hold (R20, R39), and the model's own reset counter. -/
structure SameLive (s t : State) : Prop where
  configured : s.configured = t.configured
  lines : s.lines = t.lines
  status : s.status = t.status
  busy : s.busy = t.busy
  trace : s.trace = t.trace
  rstIn : s.rstIn = t.rstIn
  cmdIn : s.cmdIn = t.cmdIn
  mode : s.configured = true → s.mode = t.mode
  phase : s.configured = true → s.phase = t.phase
  dwell : s.configured = true → s.dwell = t.dwell
  remain : s.busy = true → s.remain = t.remain
  dir : s.busy = true → s.dir = t.dir
  rest : s.busy = true → s.rest = t.rest
  sub : s.busy = true → s.sub = t.sub
  timer : s.busy = true → s.sub = .wait → s.timer = t.timer

/-! ### Closed forms -/

/-- `idx(j)` of a move that starts at index `p` in a table of `len` rows (R122). -/
def moveIndex (len : Nat) (d : Direction) (p j : Nat) : Nat :=
  match d with
  | .forward => (p + j) % len
  | .reverse => (p + len - j % len) % len

/-- Row `i` of mode `m`'s table, for an `i` below its length (R52). -/
def row (m : BitVec 2) (i : Nat) : Pattern := Config.rom (romAddr m (BitVec.ofNat 3 i))

/-- `W(ROM[m][r(0)]), H(D), ..., W(ROM[m][r(n - 1)]), H(D)`: the events of `n` steps that write the rows `r` (R122). -/
def stepEvents (m : BitVec 2) (dwell : Nat) (r : Nat → Nat) (n : Nat) : List Event :=
  (List.range n).flatMap fun j => [.W (row m (r j)), .H dwell]

/-- The least number of ticks the holds of a trace last (R101, R122). -/
def holdTicks (tr : List Event) : Nat :=
  (tr.map fun e => match e with | .W _ => 0 | .H d => d).sum

/-- `k` ADVANCEs in one direction (R96). -/
def advanceTimes : Nat → Direction → State → Option State
  | 0, _, s => some s
  | k + 1, d, s =>
    match advance d s with
    | none => none
    | some t => advanceTimes k d t

end Sys2Proof.Machine
end

