-- ==== Sys2Proof/Certificates/Slice0/Obligations.lean ====
section
/-! DEFINITION. What is claimed of the model, for the provers. Each docstring names the rule of spec/ it formalises; a claim
that rests on a choice of the model says so and names the log entry. -/

open Sys2Proof Sys2Proof.Machine

/-! ### Encoding -/

/-- Decoding an encoded well-formed command gives it back, for every command and every operand (30_encoding.md R71 to R84). -/
def Obligations.DecodeEncodeRoundTrip : Prop :=
  ∀ i : Instr, i.wf = true → decode (encode i) = .instr i

/-- Every command read from a word is well-formed, and encoding it gives the word back with an ignored `arg` cleared
(the cleared `arg` of the reserved words is the model's choice, log 8). -/
def Obligations.EncodeOfDecodedIsCanonical : Prop :=
  ∀ (w : CommandWord) (i : Instr), decode w = .instr i → i.wf = true ∧ encode i = canonicalWord w

/-- R84: the decoding procedure on all words, and what a RESERVED word executes as. -/
def Obligations.DecodingFollowsProcedure : Prop :=
  ∀ (op : BitVec 3) (arg : Word),
    (op = 0 → decode (packWord op arg) = .instr (.construct arg.toNat)) ∧
    (op = 1 → decode (packWord op arg) = .instr (.setSpeed arg.toInt)) ∧
    (op = 2 → arg.extractLsb' 1 31 = 0 →
      decode (packWord op arg) = .instr (.oneStep (if arg.getLsbD 0 then .reverse else .forward))) ∧
    (op = 3 → decode (packWord op arg) = .instr (.stepN arg.toInt)) ∧
    (op = 4 → decode (packWord op arg) = .instr (.stepAngle arg.toInt)) ∧
    (op = 5 → decode (packWord op arg) = .instr .shutdown) ∧
    (op = 6 → decode (packWord op arg) = .instr .reserved6) ∧
    (op = 7 → decode (packWord op arg) = .instr .reserved7) ∧
    (op = 2 → arg.extractLsb' 1 31 ≠ 0 → ∃ r, decode (packWord op arg) = .reject r) ∧
    ((op = 2 ∧ arg.extractLsb' 1 31 ≠ 0) ∨ op = 6 ∨ op = 7 →
      ∀ s, accept (packWord op arg) s = .next { s with status := 3#2 })

/-- Words of 95_test_vectors.md L2.1 decode to the commands they stand for. -/
def Obligations.TestVectorWordsDecode : Prop :=
  decode 0x000000002#35 = .instr (.construct 2) ∧
  decode 0x0FFFFFFFF#35 = .instr (.construct 4294967295) ∧
  decode 0x1FFFFFFF9#35 = .instr (.setSpeed (-7)) ∧
  decode 0x200000001#35 = .instr (.oneStep .reverse) ∧
  decode 0x280000001#35 = .reject (.spareDirectionBits 0x40000000#31) ∧
  decode 0x3FFFFFFFC#35 = .instr (.stepN (-4)) ∧
  decode 0x4FFFFFF80#35 = .instr (.stepAngle (-128)) ∧
  decode 0x500000063#35 = .instr .shutdown ∧
  decode 0x600000000#35 = .instr .reserved6 ∧
  decode 0x700000005#35 = .instr .reserved7

/-! ### Operands -/

/-- R77: the count, its magnitude in 32 bits, and its direction. -/
def Obligations.CountMagnitudeAndDirection : Prop :=
  ∀ arg : Word,
    decode (packWord 3 arg) = .instr (.stepN arg.toInt) ∧
    (magnitude arg.toInt).toNat = arg.toInt.natAbs ∧
    (magnitude arg.toInt).toNat ≤ 2 ^ 31 ∧
    magnitude arg.toInt = (if arg.getLsbD 31 then ~~~arg + 1 else arg) ∧
    signDirection arg.toInt = (if arg.getLsbD 31 then .reverse else .forward) ∧
    (arg = 0x80000000#32 → magnitude arg.toInt = 0x80000000#32)

/-- R127: the angle in units of 1/256 degree rounds to the nearest step, ties cannot occur, nothing is carried over. -/
def Obligations.AngleRoundsToNearestStep : Prop :=
  (360 * 256 = 45 * stepsPerRev ∧ stepsPerRev = 2048) ∧
  ∀ (a : Nat) (angle : Int), angle.natAbs = a → a ≤ 2 ^ 31 →
    (angleSteps angle).toNat = (a + 22) / 45 ∧
    (a + 22) / 45 = (2 * a + 45) / 90 ∧
    a + 22 < 2 ^ 32 ∧
    2 * (45 * ((angleSteps angle).toNat : Int) - a).natAbs < 45 ∧
    (∀ k : Nat, 2 * a ≠ 45 * (2 * k + 1)) ∧
    (∀ s t, s.configured = true → exec (.stepAngle angle) s = .next t → t.remain = angleSteps angle)

/-- R116: the arithmetic of the speed mapping. -/
def Obligations.SpeedMappingArithmetic : Prop :=
  (∀ arg : Word, (1 ≤ arg.toInt ↔ BitVec.slt 0#32 arg = true)) ∧
  ∀ p : Int, 1 ≤ p →
    (dwellOfPercent p).toNat = (100 * Config.baseDwell.val) / min p.toNat 100 ∧
    (∀ q : Int, p ≤ q → (dwellOfPercent q).toNat ≤ (dwellOfPercent p).toNat) ∧
    (100 ≤ p → (dwellOfPercent p).toNat = Config.baseDwell.val) ∧
    (dwellOfPercent p).toNat * min p.toNat 100 ≤ 100 * Config.baseDwell.val ∧
    100 * Config.baseDwell.val < ((dwellOfPercent p).toNat + 1) * min p.toNat 100 ∧
    100 * Config.baseDwell.val < 2 ^ 32

/-! ### Configuration commands -/

/-- R110, R117: a successful CONSTRUCT, on a block configured or not; everything it does not name is unchanged. -/
def Obligations.ConstructStartsInstance : Prop :=
  ∀ (mode : Nat) (s : State), mode ≤ 2 →
    exec (.construct mode) s = .next { s with
      mode := BitVec.ofNat 2 mode
      lines := 0#4
      phase := 0#3
      dwell := BitVec.ofNat 32 Config.baseDwell.val
      configured := true
      status := 0#2
      trace := s.trace ++ [.W 0#4] } ∧
    (BitVec.ofNat 2 mode).toNat = mode ∧
    (BitVec.ofNat 32 Config.baseDwell.val).toNat = Config.baseDwell.val

/-- R111, R151: a CONSTRUCT with any other mode raises ConfigurationError and changes nothing else; no other command
raises it. -/
def Obligations.ConstructRejectsUnknownMode : Prop :=
  (∀ (mode : Nat) (s : State), 3 ≤ mode → exec (.construct mode) s = .next { s with status := 1#2 }) ∧
  (∀ (i : Instr) (s t : State), exec i s = .next t → t.status = 1#2 → ∃ mode, 3 ≤ mode ∧ i = .construct mode)

/-- R113: SET_SPEED with `percent >= 1`. -/
def Obligations.SetSpeedProgramsDwell : Prop :=
  ∀ (percent : Int) (s : State), s.configured = true → 1 ≤ percent →
    exec (.setSpeed percent) s = .next { s with
      dwell := BitVec.ofNat 32 ((Config.baseDwell.val * 100) / min percent.toNat 100)
      status := 0#2 } ∧
    (BitVec.ofNat 32 ((Config.baseDwell.val * 100) / min percent.toNat 100)).toNat =
      (Config.baseDwell.val * 100) / min percent.toNat 100 ∧
    dwellInRange (BitVec.ofNat 32 ((Config.baseDwell.val * 100) / min percent.toNat 100)) ∧
    Config.baseDwell.val * 100 < 2 ^ 32

/-- R114: SET_SPEED with `percent <= 0` de-energizes and leaves the dwell. -/
def Obligations.SetSpeedNonPositiveStops : Prop :=
  ∀ (percent : Int) (s : State), s.configured = true → percent ≤ 0 →
    exec (.setSpeed percent) s = .next { s with
      lines := 0#4, status := 0#2, trace := s.trace ++ [.W 0#4] }

/-- R115: SET_SPEED with `percent <= 0` and SHUTDOWN compared. -/
def Obligations.SetSpeedStopComparedWithShutdown : Prop :=
  ∀ (percent : Int) (s : State), percent ≤ 0 →
    (s.configured = true → exec (.setSpeed percent) s = exec .shutdown s) ∧
    (s.configured = false →
      exec (.setSpeed percent) s = .next { s with status := 2#2 } ∧
      exec .shutdown s = .next { s with lines := 0#4, status := 0#2, trace := s.trace ++ [.W 0#4] })

/-! ### SHUTDOWN, reserved words, errors -/

/-- R79, R140: SHUTDOWN in every state and with every `arg`; it cannot be accepted during a move. -/
def Obligations.ShutdownDeenergizes : Prop :=
  (∀ s : State, exec .shutdown s = .next { s with
      lines := 0#4, status := 0#2, trace := s.trace ++ [.W 0#4] }) ∧
  (∀ arg : Word, decode (packWord 5 arg) = .instr .shutdown) ∧
  (∀ s : State, s.busy = true → s.accepted = none)

/-- R142: a second SHUTDOWN changes no register and no line; its write is still an event. -/
def Obligations.ShutdownIsIdempotent : Prop :=
  ∀ s t : State, exec .shutdown s = .next t →
    exec .shutdown t = .next { t with trace := t.trace ++ [.W 0#4] }

/-- R153: the four commands that need a driver instance, and the two that do not. -/
def Obligations.UnconfiguredCommandsRaiseNotConfigured : Prop :=
  (∀ s : State, s.configured = false →
    (∀ percent, exec (.setSpeed percent) s = .next { s with status := 2#2 }) ∧
    (∀ d, exec (.oneStep d) s = .next { s with status := 2#2 }) ∧
    (∀ count, exec (.stepN count) s = .next { s with status := 2#2 }) ∧
    (∀ angle, exec (.stepAngle angle) s = .next { s with status := 2#2 })) ∧
  (∀ s t : State, (exec .shutdown s = .next t ∨ ∃ mode, exec (.construct mode) s = .next t) → t.status ≠ 2#2)

/-- R80, R154: a reserved word, when accepted, sets `STATUS` to 3 and does nothing else; it is accepted only while
`BUSY = 0`. -/
def Obligations.ReservedWordsRaiseIllegalCommand : Prop :=
  (∀ s : State, exec .reserved6 s = .next { s with status := 3#2 } ∧ exec .reserved7 s = .next { s with status := 3#2 }) ∧
  (∀ (s : State) (w : CommandWord), s.accepted = some w →
    (opField w = 6 ∨ opField w = 7 ∨ (opField w = 2 ∧ (argField w).extractLsb' 1 31 ≠ 0)) →
    step s = .next { s.portTick with status := 3#2 }) ∧
  (∀ (s : State) (w : CommandWord), s.accepted = some w → s.busy = false)

/-- R156: an error is the new `STATUS` and nothing else, it is decided at acceptance, and none arises in a move. -/
def Obligations.ErrorsChangeOnlyStatus : Prop :=
  (∀ (w : CommandWord) (s : State), ∃ t, accept w s = .next t ∧
    (t.status ≠ 0#2 → t = { s with status := t.status })) ∧
  (∀ s t : State, s.rst = false → s.busy = true → step s = .next t → t.status = s.status)

/-- R158: the order of the checks, then the command executes; at a tick with `rst = 1` no command is accepted. -/
def Obligations.ErrorChecksAreOrdered : Prop :=
  (∀ (op : BitVec 3) (arg : Word) (s : State), ∃ t, accept (packWord op arg) s = .next t ∧
    t.status =
      if op = 6 ∨ op = 7 ∨ (op = 2 ∧ arg.extractLsb' 1 31 ≠ 0) then 3#2
      else if (op = 1 ∨ op = 2 ∨ op = 3 ∨ op = 4) ∧ s.configured = false then 2#2
      else if op = 0 ∧ 3 ≤ arg.toNat then 1#2
      else 0#2) ∧
  (∀ (w : CommandWord) (i : Instr) (s : State), decode w = .instr i → accept w s = exec i s) ∧
  (∀ s : State, s.rst = true → s.accepted = none)

/-! ### Movement commands -/

/-- R190 (b) with R123, R124, R126: what the tick that accepts a move does on a configured block; everything it does not
name is unchanged. -/
def Obligations.MovesAreAcceptedInOneTick : Prop :=
  ∀ s : State, s.configured = true →
    (∀ d, exec (.oneStep d) s = .next { s with
      status := 0#2, remain := 1#32, dir := d, rest := false, busy := true, sub := .emit }) ∧
    (∀ count : Int, (Instr.stepN count).wf = true → count ≠ 0 →
      exec (.stepN count) s = .next { s with
        status := 0#2, remain := BitVec.ofNat 32 count.natAbs, rest := false, busy := true, sub := .emit
        dir := if count < 0 then .reverse else .forward }) ∧
    exec (.stepN 0) s = .next { s with status := 0#2, remain := 0#32, rest := false, dir := .forward } ∧
    (∀ angle : Int, (Instr.stepAngle angle).wf = true → 22 < angle.natAbs →
      exec (.stepAngle angle) s = .next { s with
        status := 0#2, remain := BitVec.ofNat 32 ((angle.natAbs + 22) / 45), rest := true, busy := true, sub := .emit
        dir := if angle < 0 then .reverse else .forward }) ∧
    (∀ angle : Int, angle.natAbs ≤ 22 →
      exec (.stepAngle angle) s = .next { s with
        status := 0#2, remain := 0#32, rest := true, lines := 0#4, trace := s.trace ++ [.W 0#4]
        dir := if angle < 0 then .reverse else .forward })

/-- R123: ONE_STEP on a configured block is accepted and, `DWELL + 2` ticks later (R193), complete: the row at the index
as it was is on the lines, the index has moved by one, and nothing else of the command level has changed. -/
def Obligations.OneStepRunsToCompletion : Prop :=
  ∀ (d : Direction) (s : State) (len : Nat), s.configured = true →
    tableLen s.mode = some len → s.phase.toNat < len → NoReset (s.dwell.toNat + 2) s →
    ∃ t u, exec (.oneStep d) s = .next t ∧ runTicks (s.dwell.toNat + 2) t = .next u ∧
      u.busy = false ∧
      u.phase.toNat = moveIndex len d s.phase.toNat 1 ∧
      u.lines = row s.mode s.phase.toNat ∧
      u.trace = s.trace ++ [.W (row s.mode s.phase.toNat), .H s.dwell.toNat] ∧
      u.status = 0#2 ∧ u.configured = true ∧ u.mode = s.mode ∧ u.dwell = s.dwell

/-- R124, R122: STEP_N on a configured block is accepted and, `abs(count) * (DWELL + 2)` ticks later (R193), complete. -/
def Obligations.StepNRunsToCompletion : Prop :=
  ∀ (count : Int) (s : State) (len : Nat), (Instr.stepN count).wf = true → s.configured = true → s.busy = false →
    tableLen s.mode = some len → s.phase.toNat < len → NoReset (count.natAbs * (s.dwell.toNat + 2)) s →
    ∃ t u, exec (.stepN count) s = .next t ∧ runTicks (count.natAbs * (s.dwell.toNat + 2)) t = .next u ∧
      u.busy = false ∧
      u.phase.toNat = moveIndex len (signDirection count) s.phase.toNat count.natAbs ∧
      u.lines = (if count = 0 then s.lines
        else row s.mode (moveIndex len (signDirection count) s.phase.toNat (count.natAbs - 1))) ∧
      u.trace = s.trace ++
        stepEvents s.mode s.dwell.toNat (moveIndex len (signDirection count) s.phase.toNat) count.natAbs ∧
      u.status = 0#2 ∧ u.configured = true ∧ u.mode = s.mode ∧ u.dwell = s.dwell

/-- R126, R127, R128: STEP_ANGLE on a configured block is accepted and, `n * (DWELL + 2)` ticks later (R193), complete, the
lines de-energized after the last hold, for `n = 0` too. -/
def Obligations.StepAngleRunsToCompletion : Prop :=
  ∀ (angle : Int) (s : State) (len n : Nat), (Instr.stepAngle angle).wf = true → s.configured = true → s.busy = false →
    tableLen s.mode = some len → s.phase.toNat < len →
    n = (angle.natAbs + 22) / 45 → NoReset (n * (s.dwell.toNat + 2)) s →
    ∃ t u, exec (.stepAngle angle) s = .next t ∧ runTicks (n * (s.dwell.toNat + 2)) t = .next u ∧
      u.busy = false ∧
      u.phase.toNat = moveIndex len (signDirection angle) s.phase.toNat n ∧
      u.lines = 0#4 ∧
      u.trace = s.trace ++
        stepEvents s.mode s.dwell.toNat (moveIndex len (signDirection angle) s.phase.toNat) n ++ [.W 0#4] ∧
      u.status = 0#2 ∧ u.configured = true ∧ u.mode = s.mode ∧ u.dwell = s.dwell

/-- R124's corner case: `count = 1` is ONE_STEP Forward and `count = -1` is ONE_STEP Reverse. -/
def Obligations.StepNOfOneIsOneStep : Prop :=
  ∀ s : State, exec (.stepN 1) s = exec (.oneStep .forward) s ∧ exec (.stepN (-1)) s = exec (.oneStep .reverse) s

/-- R193: the tick level agrees with the command level. From a command boundary, `n * (DWELL + 2)` ticks after acceptance
for a move of `n` steps, at once for every other command and for a reserved word, `BUSY` is 0 and the command-level registers and the trace are
those the command level gives; in between `cmd_ready = 0`. -/
def Obligations.TickLevelAgreesWithCommandLevel : Prop :=
  (∀ (i : Instr) (s : State), BoundaryInv s →
    NoReset (moveLength i s * (s.dwell.toNat + 2)) s →
    ∃ t u v, exec i s = .next t ∧ command i s = .next v ∧
      runTicks (moveLength i s * (s.dwell.toNat + 2)) t = .next u ∧
      u.busy = false ∧ u.commandView = v.commandView ∧
      ∀ k < moveLength i s * (s.dwell.toNat + 2), ∃ x, runTicks k t = .next x ∧ x.cmdReady = false) ∧
  (∀ (r : DecodeReject) (s : State), s.busy = false →
    ∃ t, takeReject r s = .next t ∧ t.busy = false ∧ t.commandView = (raise .illegalCommand s).commandView)

/-- R122: the closed form of MOVE. -/
def Obligations.MoveClosedForm : Prop :=
  ∀ (n : Word) (d : Direction) (rest : Bool) (s : State) (len : Nat),
    tableLen s.mode = some len → s.phase.toNat < len →
    ∃ t ev, runMove n d rest s = some t ∧
      ev = stepEvents s.mode s.dwell.toNat (moveIndex len d s.phase.toNat) n.toNat ++ (if rest then [.W 0#4] else []) ∧
      t.trace = s.trace ++ ev ∧
      t.phase.toNat = moveIndex len d s.phase.toNat n.toNat ∧
      t.lines = (if rest then 0#4
        else if n = 0#32 then s.lines
        else row s.mode (moveIndex len d s.phase.toNat (n.toNat - 1))) ∧
      t.mode = s.mode ∧ t.dwell = s.dwell ∧ t.configured = s.configured ∧
      n.toNat * s.dwell.toNat ≤ holdTicks ev

/-- R125: the round-trip law, and the row the lines are left showing. -/
def Obligations.StepNRoundTrip : Prop :=
  (∀ (n : Int) (s : State) (len : Nat), -2 ^ 31 < n → n < 2 ^ 31 → s.configured = true →
    tableLen s.mode = some len → s.phase.toNat < len →
    ∃ t u, command (.stepN n) s = .next t ∧ command (.stepN (-n)) t = .next u ∧
      u.phase = s.phase ∧ (0 < n → u.lines = row s.mode ((s.phase.toNat + 1) % len))) ∧
  (Instr.stepN (-2 ^ 31)).wf = true ∧ (Instr.stepN (- -2 ^ 31)).wf = false

/-- R129: after a turn, the `k`-th step writes row `(i + 2 - k) mod L` for Reverse after Forward, and symmetrically
`(i - 2 + k) mod L` for Forward after Reverse, where `i` is the row last written before the turn. -/
def Obligations.ReversalWritesOneRowFurther : Prop :=
  ∀ (n m : Nat) (s : State) (len : Nat), 1 ≤ n → n < 2 ^ 31 → m < 2 ^ 31 → s.configured = true →
    tableLen s.mode = some len → s.phase.toNat < len →
    (∃ t u i, command (.stepN n) s = .next t ∧ t.lines = row s.mode i ∧
      i = moveIndex len .forward s.phase.toNat (n - 1) ∧
      command (.stepN (-m)) t = .next u ∧
      u.trace = t.trace ++ stepEvents s.mode s.dwell.toNat (fun k => (((i : Int) + 2 - (k + 1)) % len).toNat) m ∧
      (m = n → u.phase = s.phase ∧ u.lines = row s.mode ((s.phase.toNat + 1) % len))) ∧
    (∃ t u i, command (.stepN (-n)) s = .next t ∧ t.lines = row s.mode i ∧
      i = moveIndex len .reverse s.phase.toNat (n - 1) ∧
      command (.stepN m) t = .next u ∧
      u.trace = t.trace ++ stepEvents s.mode s.dwell.toNat (fun k => (((i : Int) - 2 + (k + 1)) % len).toNat) m ∧
      (m = n → u.phase = s.phase ∧ u.lines = row s.mode ((s.phase.toNat + len - 1) % len)))

/-! ### The index counter and the pattern space -/

/-- R94: ADVANCE, in both directions, wrapping at the table's length and never at 8. -/
def Obligations.AdvanceMovesIndexModuloLength : Prop :=
  ∀ (s : State) (len : Nat), tableLen s.mode = some len → s.phase.toNat < len →
    (∃ t, advance .forward s = some t ∧ t = { s with phase := t.phase } ∧
      t.phase.toNat = (s.phase.toNat + 1) % len ∧
      t.phase = (if s.phase.toNat = len - 1 then 0#3 else s.phase + 1#3) ∧ t.phase.toNat < len) ∧
    (∃ t, advance .reverse s = some t ∧ t = { s with phase := t.phase } ∧
      t.phase.toNat = (s.phase.toNat + len - 1) % len ∧
      t.phase = (if s.phase.toNat = 0 then BitVec.ofNat 3 (len - 1) else s.phase - 1#3) ∧ t.phase.toNat < len)

/-- R95: stepping Forward then Reverse the same count returns the index to its value, and so does Reverse then Forward. -/
def Obligations.AdvanceIsInvertible : Prop :=
  ∀ (k : Nat) (s : State) (len : Nat), tableLen s.mode = some len → s.phase.toNat < len →
    (∃ t, advanceTimes k .forward s = some t ∧ advanceTimes k .reverse t = some s) ∧
    (∃ t, advanceTimes k .reverse s = some t ∧ advanceTimes k .forward t = some s)

/-- R96: the closed form of `k` ADVANCEs. -/
def Obligations.AdvanceClosedForm : Prop :=
  ∀ (k : Nat) (s : State) (len : Nat), tableLen s.mode = some len → s.phase.toNat < len →
    (∃ t, advanceTimes k .forward s = some t ∧ t.phase.toNat = (s.phase.toNat + k) % len) ∧
    (∃ t, advanceTimes k .reverse s = some t ∧ t.phase.toNat = (s.phase.toNat + len - k % len) % len)

/-- R52, R58: the map of the pattern space; 14 word addresses hold a word, the other 18 none, whatever state the block
is in. -/
def Obligations.PatternSpaceMap : Prop :=
  (∀ (m : BitVec 2) (i : BitVec 3), (romAddr m i).toNat = 8 * m.toNat + i.toNat ∧ romRead m i = memRead (romAddr m i)) ∧
  (∀ a : RomAddr, memRead a = some (Config.rom a) ∨ memRead a = none) ∧
  (∀ a : RomAddr, (memRead a).isSome = true ↔
    (a.toNat ≤ 3 ∨ (8 ≤ a.toNat ∧ a.toNat ≤ 11) ∨ (16 ≤ a.toNat ∧ a.toNat ≤ 21)))

/-- R120: STEP writes the row at the index as it is before the advance, moves the index, and holds. -/
def Obligations.StepWritesThenAdvancesThenHolds : Prop :=
  ∀ (d : Direction) (s : State) (len : Nat), tableLen s.mode = some len → s.phase.toNat < len →
    ∃ t, stepMicro d s = some t ∧
      t = { s with
        lines := row s.mode s.phase.toNat
        phase := t.phase
        timer := s.dwell
        trace := s.trace ++ [.W (row s.mode s.phase.toNat), .H s.dwell.toNat] } ∧
      t.phase.toNat = moveIndex len d s.phase.toNat 1

/-! ### Ticks -/

/-- R190: the idle tick. -/
def Obligations.IdleTick : Prop :=
  ∀ s : State, s.rst = false → s.busy = false →
    (s.presented = none → step s = .next { s with rstIn := s.rstIn.tail, cmdIn := s.cmdIn.tail }) ∧
    (∀ w, s.presented = some w → ∃ p, p = { s with rstIn := s.rstIn.tail, cmdIn := s.cmdIn.tail } ∧
      (∀ r, decode w = .reject r → step s = .next { p with status := 3#2 }) ∧
      (∀ i, decode w = .instr i →
        ((moveOf i = none ∨ s.configured = false) → step s = command i p) ∧
        (∀ n d rest, moveOf i = some (n, d, rest) → s.configured = true →
          (n ≠ 0#32 → step s = .next { p with
            status := 0#2, remain := n, dir := d, rest := rest, busy := true, sub := .emit }) ∧
          (n = 0#32 → rest = true → step s = .next { p with
            status := 0#2, remain := n, dir := d, rest := rest, lines := 0#4, trace := s.trace ++ [.W 0#4] }) ∧
          (n = 0#32 → rest = false → step s = .next { p with
            status := 0#2, remain := n, dir := d, rest := rest }))))

/-- A step of an idle block that accepts a word decoding to `i` is `exec i`, with the host's inputs moved on by one tick; a
word that is accepted is one the host presents. -/
def Obligations.StepRunsDecodedInstruction : Prop :=
  ∀ (s : State) (w : CommandWord), s.accepted = some w →
    s.portTick = { s with rstIn := s.rstIn.tail, cmdIn := s.cmdIn.tail } ∧
    s.cmdIn.head? = some (.present w) ∧
    (∀ i, decode w = .instr i → step s = exec i s.portTick) ∧
    (∀ r, decode w = .reject r → step s = takeReject r s.portTick)

/-- A table word placed at the command port is what the next step runs (log 10). -/
def Obligations.PresentedTableWordRunsNext : Prop :=
  ∀ (s : State) (nbits w : Nat) (i : Instr), decodeTableWord nbits w = some i →
    step (s.withFetchWord nbits w) = exec i { s with busy := false, rstIn := s.rstIn.tail }

/-- R191: the EMIT tick; the reads of `PHASE` and `DWELL` see the values before the tick. -/
def Obligations.EmitTick : Prop :=
  ∀ (s : State) (len : Nat), s.rst = false → s.busy = true → s.sub = .emit →
    tableLen s.mode = some len → s.phase.toNat < len →
    ∃ p, step s = .next { s.portTick with
        lines := row s.mode s.phase.toNat
        phase := p
        timer := s.dwell
        trace := s.trace ++ [.W (row s.mode s.phase.toNat), .H s.dwell.toNat]
        remain := s.remain - 1#32
        sub := .wait } ∧
      p.toNat = moveIndex len s.dir s.phase.toNat 1

/-- R192: the WAIT tick, and that a hold of `TIMER = T` ends after `T + 1` of them, the lines and the command-level
registers held through the first `T`. -/
def Obligations.WaitTick : Prop :=
  (∀ s : State, s.rst = false → s.busy = true → s.sub = .wait →
    (s.timer ≠ 0#32 → step s = .next { s.portTick with timer := s.timer - 1#32 }) ∧
    (s.timer = 0#32 → s.remain ≠ 0#32 → step s = .next { s.portTick with sub := .emit }) ∧
    (s.timer = 0#32 → s.remain = 0#32 → s.rest = false → step s = .next { s.portTick with busy := false }) ∧
    (s.timer = 0#32 → s.remain = 0#32 → s.rest = true →
      step s = .next { s.portTick with busy := false, lines := 0#4, trace := s.trace ++ [.W 0#4] })) ∧
  (∀ s : State, s.busy = true → s.sub = .wait → NoReset (s.timer.toNat + 1) s →
    (∀ k ≤ s.timer.toNat, ∃ t, runTicks k s = .next t ∧ t.busy = true ∧ t.sub = .wait ∧
      t.timer.toNat = s.timer.toNat - k ∧ t.commandView = s.commandView) ∧
    (∃ t, runTicks (s.timer.toNat + 1) s = .next t ∧ (t.busy = false ∨ t.sub = .emit)))

/-- R104: from a step's line write to the end of its wait, the pattern and the index stay, and no command is accepted. -/
def Obligations.HoldKeepsLinesIndexAndPort : Prop :=
  ∀ (s t : State), s.rst = false → s.busy = true → s.sub = .emit → step s = .next t → NoReset s.dwell.toNat t →
    ∀ k ≤ s.dwell.toNat, ∃ u, runTicks k t = .next u ∧ u.lines = t.lines ∧ u.phase = t.phase ∧
      u.trace = t.trace ∧ u.cmdReady = false ∧ u.accepted = none

/-- R199's row "one step's line write to the next step's line write, same move": `D + 2` ticks. A figure of the spec's
tick-level refinement, not of every implementation (log 1). -/
def Obligations.StepPeriodIsDwellPlusTwo : Prop :=
  ∀ (s : State) (len : Nat), s.busy = true → s.sub = .emit → s.remain ≠ 1#32 →
    tableLen s.mode = some len → s.phase.toNat < len → NoReset (s.dwell.toNat + 2) s →
    ∃ t, runTicks (s.dwell.toNat + 2) s = .next t ∧ t.busy = true ∧ t.sub = .emit ∧
      t.remain = s.remain - 1#32 ∧ t.lines = row s.mode s.phase.toNat ∧
      t.phase.toNat = moveIndex len s.dir s.phase.toNat 1

/-- R72: while `BUSY = 1` the port is not ready, no command is accepted, what the host presents stays, and what it presents
has no effect on the block. -/
def Obligations.BusyBlockIgnoresPort : Prop :=
  ∀ (s : State) (q : List HostMove), s.busy = true → s.rst = false →
    s.cmdReady = false ∧ s.accepted = none ∧
    (∀ t, step s = .next t → ∀ w, s.presented = some w → t.cmdIn = s.cmdIn) ∧
    step { s with cmdIn := q } = mapNext (fun t => { t with cmdIn := hostMoves false q }) (step s)

/-- R121's "Nothing can interrupt, shorten, lengthen or redirect the loop except reset": what a tick of a move leaves
alone, and how `REMAIN` goes down. -/
def Obligations.MoveInFlightIsNotRedirected : Prop :=
  ∀ s t : State, s.rst = false → s.busy = true → step s = .next t →
    t.mode = s.mode ∧ t.dwell = s.dwell ∧ t.configured = s.configured ∧ t.status = s.status ∧
    t.dir = s.dir ∧ t.rest = s.rest ∧ t.resets = s.resets ∧
    t.remain = (if s.sub = .emit then s.remain - 1#32 else s.remain) ∧
    (t.busy = false → s.sub = .wait ∧ s.timer = 0#32 ∧ s.remain = 0#32)

/-- R59: an EMIT tick whose address is unreachable is the model's fault, and that is the only way a tick stops. -/
def Obligations.TickFaultsOnlyAtUnreachableAddress : Prop :=
  ∀ s : State,
    (s.rst = false → s.busy = true → s.sub = .emit → romRead s.mode s.phase = none →
      step s = .fault .unreachablePatternAddress) ∧
    (¬ (s.rst = false ∧ s.busy = true ∧ s.sub = .emit ∧ romRead s.mode s.phase = none) → ∃ t, step s = .next t)

/-! ### Reset -/

/-- R180: reset at any tick. What it leaves, that it has priority over a command and over a move in flight, and that nothing
else clears `CONFIGURED` or ends a move early. The unspecified registers hold free values (log 3). -/
def Obligations.ResetTick : Prop :=
  (∀ s : State, s.rst = true → ∃ t, step s = .next t ∧ ResetState t ∧
    s.accepted = none ∧ (∀ w, s.presented = some w → t.cmdIn = s.cmdIn)) ∧
  (∀ s t : State, step s = .next t → s.configured = true → t.configured = false → s.rst = true) ∧
  (∀ s t : State, step s = .next t → s.busy = true → t.busy = false →
    s.rst = true ∨ (s.sub = .wait ∧ s.timer = 0#32 ∧ s.remain = 0#32))

/-- The machine after reset is in `ResetState` (R39, R181) and meets the invariant of every tick. -/
def Obligations.ResetMeetsInvariant : Prop :=
  ResetState State.reset ∧ Inv State.reset ∧ BoundaryInv State.reset

/-! ### Invariants and whole-machine rules -/

/-- Every tick keeps the invariant: legal mode, index inside the table, dwell in range, lines off or showing a row of the
table, the lines the trace's latest write, and what holds of a move in flight (R38, R56, R61). -/
def Obligations.StepKeepsInvariant : Prop :=
  ∀ s t : State, Inv s → step s = .next t → Inv t

/-- R38: INV1 to INV6 at every command boundary of every reachable state, and INV3 at every tick. -/
def Obligations.ReachableBoundariesMeetInvariant : Prop :=
  ∀ s : State, Reachable s →
    (s.busy = false → BoundaryInv s) ∧
    (s.configured = true → ∃ len, tableLen s.mode = some len ∧ s.phase.toNat < len)

/-- R56: no state that meets the invariant has a tick that stops. -/
def Obligations.NoTickStopsUnderInvariant : Prop :=
  ∀ s : State, Inv s → ∃ t, step s = .next t

/-- R23: `CONFIGURED` is set by a successful CONSTRUCT and cleared by reset, and by nothing else. -/
def Obligations.ConfiguredWriters : Prop :=
  State.reset.configured = false ∧
  (∀ s t : State, step s = .next t → t.configured ≠ s.configured →
    (s.rst = true ∧ t.configured = false) ∨
    (∃ w mode, s.accepted = some w ∧ decode w = .instr (.construct mode) ∧ mode ≤ 2 ∧ t.configured = true)) ∧
  (∀ (mode : Nat) (s t : State), mode ≤ 2 → exec (.construct mode) s = .next t → t.configured = true) ∧
  (∀ s : State, s.configured = false →
    (∀ p, exec (.setSpeed p) s = .next { s with status := 2#2 }) ∧ (∀ d, exec (.oneStep d) s = .next { s with status := 2#2 }) ∧
    (∀ c, exec (.stepN c) s = .next { s with status := 2#2 }) ∧ (∀ a, exec (.stepAngle a) s = .next { s with status := 2#2 }))

/-- R24: `MODE` is written only by a successful CONSTRUCT, with 0, 1 or 2 (a reset leaves it unspecified, R180), and every
step reads it to select the table. -/
def Obligations.ModeWrittenOnlyByConstruct : Prop :=
  (∀ s t : State, step s = .next t → t.mode ≠ s.mode →
    s.rst = true ∨
    (∃ w mode, s.accepted = some w ∧ decode w = .instr (.construct mode) ∧ mode ≤ 2 ∧ t.mode.toNat = mode)) ∧
  (∀ s : State, readPattern s = romRead s.mode s.phase)

/-- R25: `PHASE` is written to 0 by a successful CONSTRUCT and moved by each step, by nothing else; a configured reachable
block has it inside its table. -/
def Obligations.PhaseMovedOnlyByStep : Prop :=
  (∀ s t : State, step s = .next t → t.phase ≠ s.phase →
    s.rst = true ∨
    (s.busy = true ∧ s.sub = .emit ∧ ∃ len, tableLen s.mode = some len ∧ t.phase = nextIndex len s.dir s.phase) ∨
    (∃ w mode, s.accepted = some w ∧ decode w = .instr (.construct mode) ∧ mode ≤ 2 ∧ t.phase = 0#3)) ∧
  (∀ s : State, Reachable s → s.configured = true → ∃ len, tableLen s.mode = some len ∧ s.phase.toNat < len)

/-- R26: `DWELL` is written by a successful CONSTRUCT and by SET_SPEED with a positive percent, by nothing else (a reset
leaves it unspecified), and stays in range on a configured reachable block. -/
def Obligations.DwellWriters : Prop :=
  (∀ s t : State, step s = .next t → t.dwell ≠ s.dwell →
    s.rst = true ∨
    (∃ w mode, s.accepted = some w ∧ decode w = .instr (.construct mode) ∧ mode ≤ 2 ∧
      t.dwell.toNat = Config.baseDwell.val) ∨
    (∃ w percent, s.accepted = some w ∧ decode w = .instr (.setSpeed percent) ∧ 1 ≤ percent ∧
      t.dwell = dwellOfPercent percent)) ∧
  (∀ s : State, Reachable s → s.configured = true → dwellInRange s.dwell)

/-- R28: `STATUS` is written once per accepted command, keeps no history and is read by nothing; reset clears it. -/
def Obligations.StatusIsWrittenAtAcceptanceOnly : Prop :=
  ∀ (s : State) (c : BitVec 2),
    (s.rst = true → ∃ t, step s = .next t ∧ t.status = 0#2 ∧ step { s with status := c } = step s) ∧
    (s.rst = false → s.accepted = none →
      (∀ t, step s = .next t → t.status = s.status) ∧
      step { s with status := c } = mapNext (fun t => { t with status := c }) (step s)) ∧
    (∀ w, s.accepted = some w → step { s with status := c } = step s)

/-- R27: the block never reads `LINES`: what is on them changes nothing but, at most, what is still on them. -/
def Obligations.LinesAreNeverRead : Prop :=
  ∀ (s : State) (v : Pattern),
    mapNext (fun t => { t with lines := 0#4 }) (step { s with lines := v }) =
      mapNext (fun t => { t with lines := 0#4 }) (step s)

/-- R61: the lines show at every instant the value of the trace's latest write, and a tick that changes them writes an
event. -/
def Obligations.LinesShowLatestWrite : Prop :=
  ∀ s t : State, s.lines = lastWrite s.trace → step s = .next t →
    t.lines = lastWrite t.trace ∧ (t.lines ≠ s.lines → t.trace ≠ s.trace)

/-- R41: `TRACE` is appended to and never read. -/
def Obligations.TraceIsAppendedAndNeverRead : Prop :=
  ∀ s : State, s.rst = false → ∃ ev : List Event, ev.length ≤ 2 ∧
    ∀ tr : List Event, step { s with trace := tr } = mapNext (fun t => { t with trace := tr ++ ev }) (step s)

/-- R39: no rule reads a register that holds no value. Two states alike but for such registers stay alike at every tick, so
the free values the model puts into them after a reset (log 3) never show. -/
def Obligations.UnspecifiedRegistersNeverShow : Prop :=
  ∀ s t s' : State, Inv s → SameLive s t → step s = .next s' →
    ∃ t', step t = .next t' ∧ SameLive s' t' ∧ s'.outputs.lines = t'.outputs.lines ∧ s'.outputs.status = t'.outputs.status

/-- R186: when the block itself guarantees de-energized lines. -/
def Obligations.DeenergizedLinesAreGuaranteed : Prop :=
  (∀ s t : State, s.rst = true → step s = .next t → t.lines = 0#4) ∧
  (∀ (mode : Nat) (s t : State), mode ≤ 2 → command (.construct mode) s = .next t → t.lines = 0#4) ∧
  (∀ s t : State, command .shutdown s = .next t → t.lines = 0#4) ∧
  (∀ (percent : Int) (s t : State), s.configured = true → percent ≤ 0 →
    command (.setSpeed percent) s = .next t → t.lines = 0#4) ∧
  (∀ (angle : Int) (s t : State), s.configured = true → command (.stepAngle angle) s = .next t → t.lines = 0#4) ∧
  (∀ s : State, Reachable s → s.configured = false → s.lines = 0#4)

/-- R40: the outputs are the current values of the registers, and without a command or a reset an idle block keeps every
register. -/
def Obligations.OutputsMirrorRegisters : Prop :=
  (∀ s : State, s.outputs.busy = s.busy ∧ s.outputs.configured = s.configured ∧ s.outputs.status = s.status ∧
    s.outputs.phase = s.phase ∧ s.outputs.lines = s.lines ∧ s.outputs.cmdReady = !s.busy) ∧
  (∀ s : State, s.rst = false → s.busy = false → s.accepted = none →
    ∃ t, step s = .next t ∧ t = { s with rstIn := t.rstIn, cmdIn := t.cmdIn })
end

