-- ==== Sys2Proof/Laws/PerInstr.lean ====
section
/-! SUPPORT. Facts stated per constructor of Instr. -/

namespace Sys2Proof.Laws.OpField

/-- The `op` field of an encoded command is the command's `op`, and its `arg` field the command's `arg` (R71, R73). -/
def Statement (i : Instr) : Prop := opField (encode i) = i.op ∧ argField (encode i) = i.arg

theorem of_pack (op : BitVec 3) (arg : Word) :
    opField (packWord op arg) = op ∧ argField (packWord op arg) = arg := by
  constructor
  · ext k hk
    simp only [opField, packWord, BitVec.getElem_extractLsb', BitVec.getLsbD_append]
    simp [hk]
  · ext k hk
    simp only [argField, packWord, BitVec.getElem_extractLsb', BitVec.getLsbD_append]
    simp [hk]

theorem construct (mode : Nat) : Statement (.construct mode) := of_pack _ _
theorem setSpeed (percent : Int) : Statement (.setSpeed percent) := of_pack _ _
theorem oneStep (dir : Direction) : Statement (.oneStep dir) := of_pack _ _
theorem stepN (count : Int) : Statement (.stepN count) := of_pack _ _
theorem stepAngle (angle : Int) : Statement (.stepAngle angle) := of_pack _ _
theorem shutdown : Statement .shutdown := of_pack _ _
theorem reserved6 : Statement .reserved6 := of_pack _ _
theorem reserved7 : Statement .reserved7 := of_pack _ _

end Sys2Proof.Laws.OpField
end

