-- ==== Sys2Proof/Laws/State.lean ====
section
/-! SUPPORT. One lemma per field per update of State, so that no proof unfolds a record update. -/

namespace Sys2Proof.Machine

/-! ### `setOk` -/

@[simp] theorem setOk_configured (s : State) : (setOk s).configured = s.configured := rfl
@[simp] theorem setOk_mode (s : State) : (setOk s).mode = s.mode := rfl
@[simp] theorem setOk_phase (s : State) : (setOk s).phase = s.phase := rfl
@[simp] theorem setOk_dwell (s : State) : (setOk s).dwell = s.dwell := rfl
@[simp] theorem setOk_lines (s : State) : (setOk s).lines = s.lines := rfl
@[simp] theorem setOk_status (s : State) : (setOk s).status = 0#2 := rfl
@[simp] theorem setOk_busy (s : State) : (setOk s).busy = s.busy := rfl
@[simp] theorem setOk_timer (s : State) : (setOk s).timer = s.timer := rfl
@[simp] theorem setOk_remain (s : State) : (setOk s).remain = s.remain := rfl
@[simp] theorem setOk_dir (s : State) : (setOk s).dir = s.dir := rfl
@[simp] theorem setOk_rest (s : State) : (setOk s).rest = s.rest := rfl
@[simp] theorem setOk_sub (s : State) : (setOk s).sub = s.sub := rfl
@[simp] theorem setOk_trace (s : State) : (setOk s).trace = s.trace := rfl
@[simp] theorem setOk_rstIn (s : State) : (setOk s).rstIn = s.rstIn := rfl
@[simp] theorem setOk_cmdIn (s : State) : (setOk s).cmdIn = s.cmdIn := rfl
@[simp] theorem setOk_resets (s : State) : (setOk s).resets = s.resets := rfl

/-! ### `raise` -/

@[simp] theorem raise_configured (e : CmdError) (s : State) : (raise e s).configured = s.configured := rfl
@[simp] theorem raise_mode (e : CmdError) (s : State) : (raise e s).mode = s.mode := rfl
@[simp] theorem raise_phase (e : CmdError) (s : State) : (raise e s).phase = s.phase := rfl
@[simp] theorem raise_dwell (e : CmdError) (s : State) : (raise e s).dwell = s.dwell := rfl
@[simp] theorem raise_lines (e : CmdError) (s : State) : (raise e s).lines = s.lines := rfl
@[simp] theorem raise_status (e : CmdError) (s : State) : (raise e s).status = e.code := rfl
@[simp] theorem raise_busy (e : CmdError) (s : State) : (raise e s).busy = s.busy := rfl
@[simp] theorem raise_timer (e : CmdError) (s : State) : (raise e s).timer = s.timer := rfl
@[simp] theorem raise_remain (e : CmdError) (s : State) : (raise e s).remain = s.remain := rfl
@[simp] theorem raise_dir (e : CmdError) (s : State) : (raise e s).dir = s.dir := rfl
@[simp] theorem raise_rest (e : CmdError) (s : State) : (raise e s).rest = s.rest := rfl
@[simp] theorem raise_sub (e : CmdError) (s : State) : (raise e s).sub = s.sub := rfl
@[simp] theorem raise_trace (e : CmdError) (s : State) : (raise e s).trace = s.trace := rfl
@[simp] theorem raise_rstIn (e : CmdError) (s : State) : (raise e s).rstIn = s.rstIn := rfl
@[simp] theorem raise_cmdIn (e : CmdError) (s : State) : (raise e s).cmdIn = s.cmdIn := rfl
@[simp] theorem raise_resets (e : CmdError) (s : State) : (raise e s).resets = s.resets := rfl

/-! ### `lineWrite` -/

@[simp] theorem lineWrite_configured (v : Pattern) (s : State) : (lineWrite v s).configured = s.configured := rfl
@[simp] theorem lineWrite_mode (v : Pattern) (s : State) : (lineWrite v s).mode = s.mode := rfl
@[simp] theorem lineWrite_phase (v : Pattern) (s : State) : (lineWrite v s).phase = s.phase := rfl
@[simp] theorem lineWrite_dwell (v : Pattern) (s : State) : (lineWrite v s).dwell = s.dwell := rfl
@[simp] theorem lineWrite_lines (v : Pattern) (s : State) : (lineWrite v s).lines = v := rfl
@[simp] theorem lineWrite_status (v : Pattern) (s : State) : (lineWrite v s).status = s.status := rfl
@[simp] theorem lineWrite_busy (v : Pattern) (s : State) : (lineWrite v s).busy = s.busy := rfl
@[simp] theorem lineWrite_timer (v : Pattern) (s : State) : (lineWrite v s).timer = s.timer := rfl
@[simp] theorem lineWrite_remain (v : Pattern) (s : State) : (lineWrite v s).remain = s.remain := rfl
@[simp] theorem lineWrite_dir (v : Pattern) (s : State) : (lineWrite v s).dir = s.dir := rfl
@[simp] theorem lineWrite_rest (v : Pattern) (s : State) : (lineWrite v s).rest = s.rest := rfl
@[simp] theorem lineWrite_sub (v : Pattern) (s : State) : (lineWrite v s).sub = s.sub := rfl
@[simp] theorem lineWrite_trace (v : Pattern) (s : State) : (lineWrite v s).trace = s.trace ++ [.W v] := rfl
@[simp] theorem lineWrite_rstIn (v : Pattern) (s : State) : (lineWrite v s).rstIn = s.rstIn := rfl
@[simp] theorem lineWrite_cmdIn (v : Pattern) (s : State) : (lineWrite v s).cmdIn = s.cmdIn := rfl
@[simp] theorem lineWrite_resets (v : Pattern) (s : State) : (lineWrite v s).resets = s.resets := rfl

/-! ### `startHold` -/

@[simp] theorem startHold_configured (s : State) : (startHold s).configured = s.configured := rfl
@[simp] theorem startHold_mode (s : State) : (startHold s).mode = s.mode := rfl
@[simp] theorem startHold_phase (s : State) : (startHold s).phase = s.phase := rfl
@[simp] theorem startHold_dwell (s : State) : (startHold s).dwell = s.dwell := rfl
@[simp] theorem startHold_lines (s : State) : (startHold s).lines = s.lines := rfl
@[simp] theorem startHold_status (s : State) : (startHold s).status = s.status := rfl
@[simp] theorem startHold_busy (s : State) : (startHold s).busy = s.busy := rfl
@[simp] theorem startHold_timer (s : State) : (startHold s).timer = s.dwell := rfl
@[simp] theorem startHold_remain (s : State) : (startHold s).remain = s.remain := rfl
@[simp] theorem startHold_dir (s : State) : (startHold s).dir = s.dir := rfl
@[simp] theorem startHold_rest (s : State) : (startHold s).rest = s.rest := rfl
@[simp] theorem startHold_sub (s : State) : (startHold s).sub = s.sub := rfl
@[simp] theorem startHold_trace (s : State) : (startHold s).trace = s.trace ++ [.H s.dwell.toNat] := rfl
@[simp] theorem startHold_rstIn (s : State) : (startHold s).rstIn = s.rstIn := rfl
@[simp] theorem startHold_cmdIn (s : State) : (startHold s).cmdIn = s.cmdIn := rfl
@[simp] theorem startHold_resets (s : State) : (startHold s).resets = s.resets := rfl

/-! ### `portTick` -/

@[simp] theorem portTick_configured (s : State) : (s.portTick).configured = s.configured := rfl
@[simp] theorem portTick_mode (s : State) : (s.portTick).mode = s.mode := rfl
@[simp] theorem portTick_phase (s : State) : (s.portTick).phase = s.phase := rfl
@[simp] theorem portTick_dwell (s : State) : (s.portTick).dwell = s.dwell := rfl
@[simp] theorem portTick_lines (s : State) : (s.portTick).lines = s.lines := rfl
@[simp] theorem portTick_status (s : State) : (s.portTick).status = s.status := rfl
@[simp] theorem portTick_busy (s : State) : (s.portTick).busy = s.busy := rfl
@[simp] theorem portTick_timer (s : State) : (s.portTick).timer = s.timer := rfl
@[simp] theorem portTick_remain (s : State) : (s.portTick).remain = s.remain := rfl
@[simp] theorem portTick_dir (s : State) : (s.portTick).dir = s.dir := rfl
@[simp] theorem portTick_rest (s : State) : (s.portTick).rest = s.rest := rfl
@[simp] theorem portTick_sub (s : State) : (s.portTick).sub = s.sub := rfl
@[simp] theorem portTick_trace (s : State) : (s.portTick).trace = s.trace := rfl
@[simp] theorem portTick_rstIn (s : State) : (s.portTick).rstIn = s.rstIn.tail := rfl
@[simp] theorem portTick_cmdIn (s : State) : (s.portTick).cmdIn = hostMoves s.accepted.isSome s.cmdIn := rfl
@[simp] theorem portTick_resets (s : State) : (s.portTick).resets = s.resets := rfl

/-! ### `resetTick` -/

@[simp] theorem resetTick_configured (s : State) : (resetTick s).configured = false := rfl
@[simp] theorem resetTick_mode (s : State) : (resetTick s).mode = Config.unspecMode s.resets := rfl
@[simp] theorem resetTick_phase (s : State) : (resetTick s).phase = Config.unspecPhase s.resets := rfl
@[simp] theorem resetTick_dwell (s : State) : (resetTick s).dwell = Config.unspecDwell s.resets := rfl
@[simp] theorem resetTick_lines (s : State) : (resetTick s).lines = 0#4 := rfl
@[simp] theorem resetTick_status (s : State) : (resetTick s).status = 0#2 := rfl
@[simp] theorem resetTick_busy (s : State) : (resetTick s).busy = false := rfl
@[simp] theorem resetTick_timer (s : State) : (resetTick s).timer = Config.unspecTimer s.resets := rfl
@[simp] theorem resetTick_remain (s : State) : (resetTick s).remain = Config.unspecRemain s.resets := rfl
@[simp] theorem resetTick_dir (s : State) : (resetTick s).dir = Config.unspecDir s.resets := rfl
@[simp] theorem resetTick_rest (s : State) : (resetTick s).rest = Config.unspecRest s.resets := rfl
@[simp] theorem resetTick_sub (s : State) : (resetTick s).sub = Config.unspecSub s.resets := rfl
@[simp] theorem resetTick_trace (s : State) : (resetTick s).trace = [] := rfl
@[simp] theorem resetTick_rstIn (s : State) : (resetTick s).rstIn = s.rstIn := rfl
@[simp] theorem resetTick_cmdIn (s : State) : (resetTick s).cmdIn = s.cmdIn := rfl
@[simp] theorem resetTick_resets (s : State) : (resetTick s).resets = s.resets + 1 := rfl

/-! ### `finishMove` -/

@[simp] theorem finishMove_configured (s : State) : (finishMove s).configured = s.configured := by
  unfold finishMove; split <;> rfl
@[simp] theorem finishMove_mode (s : State) : (finishMove s).mode = s.mode := by
  unfold finishMove; split <;> rfl
@[simp] theorem finishMove_phase (s : State) : (finishMove s).phase = s.phase := by
  unfold finishMove; split <;> rfl
@[simp] theorem finishMove_dwell (s : State) : (finishMove s).dwell = s.dwell := by
  unfold finishMove; split <;> rfl
@[simp] theorem finishMove_lines (s : State) : (finishMove s).lines = if s.rest then 0#4 else s.lines := by
  unfold finishMove; split <;> rfl
@[simp] theorem finishMove_status (s : State) : (finishMove s).status = s.status := by
  unfold finishMove; split <;> rfl
@[simp] theorem finishMove_busy (s : State) : (finishMove s).busy = false := by
  unfold finishMove; split <;> rfl
@[simp] theorem finishMove_timer (s : State) : (finishMove s).timer = s.timer := by
  unfold finishMove; split <;> rfl
@[simp] theorem finishMove_remain (s : State) : (finishMove s).remain = s.remain := by
  unfold finishMove; split <;> rfl
@[simp] theorem finishMove_dir (s : State) : (finishMove s).dir = s.dir := by
  unfold finishMove; split <;> rfl
@[simp] theorem finishMove_rest (s : State) : (finishMove s).rest = s.rest := by
  unfold finishMove; split <;> rfl
@[simp] theorem finishMove_sub (s : State) : (finishMove s).sub = s.sub := by
  unfold finishMove; split <;> rfl
@[simp] theorem finishMove_trace (s : State) : (finishMove s).trace = if s.rest then s.trace ++ [.W 0#4] else s.trace := by
  unfold finishMove; split <;> rfl
@[simp] theorem finishMove_rstIn (s : State) : (finishMove s).rstIn = s.rstIn := by
  unfold finishMove; split <;> rfl
@[simp] theorem finishMove_cmdIn (s : State) : (finishMove s).cmdIn = s.cmdIn := by
  unfold finishMove; split <;> rfl
@[simp] theorem finishMove_resets (s : State) : (finishMove s).resets = s.resets := by
  unfold finishMove; split <;> rfl

end Sys2Proof.Machine
end

