-- ==== Sys2Proof/Laws/Ops.lean ====
section
/-! SUPPORT. What each shared operation can do, said once: the pattern space, the index counter, STEP, the acceptance of a
move, the ticks of a move. -/

namespace Sys2Proof.Machine

/-! ### The pattern space and the index -/

theorem tableLen_cases {m : BitVec 2} {len : Nat} (h : tableLen m = some len) :
    m.toNat ≤ 2 ∧ (len = 4 ∨ len = 6) := by
  unfold tableLen at h
  split at h <;> simp_all

theorem tableLen_of_le {m : BitVec 2} (h : m.toNat ≤ 2) : ∃ len, tableLen m = some len := by
  have hm : m.toNat = 0 ∨ m.toNat = 1 ∨ m.toNat = 2 := by omega
  rcases hm with hm | hm | hm <;> simp [tableLen, hm]

theorem inTable_iff (m : BitVec 2) (i : BitVec 3) :
    inTable m i = true ↔ ∃ len, tableLen m = some len ∧ i.toNat < len := by
  unfold inTable
  cases tableLen m <;> simp

theorem romAddr_fields (m : BitVec 2) (i : BitVec 3) :
    (romAddr m i).extractLsb' 3 2 = m ∧ (romAddr m i).extractLsb' 0 3 = i := by
  constructor
  · ext k hk
    simp only [romAddr, BitVec.getElem_extractLsb', BitVec.getLsbD_append]
    simp [hk]
  · ext k hk
    simp only [romAddr, BitVec.getElem_extractLsb', BitVec.getLsbD_append]
    simp [hk]

theorem romRead_eq (m : BitVec 2) (i : BitVec 3) :
    romRead m i = if inTable m i then some (Config.rom (romAddr m i)) else none := by
  simp only [romRead, memRead, romAddr_fields]

theorem romRead_row {m : BitVec 2} {i : BitVec 3} {len : Nat} (hl : tableLen m = some len) (hi : i.toNat < len) :
    romRead m i = some (row m i.toNat) := by
  rw [romRead_eq, if_pos ((inTable_iff m i).2 ⟨len, hl, hi⟩)]
  simp [row]

theorem romRead_none {m : BitVec 2} {i : BitVec 3} (h : romRead m i = none) :
    ∀ len, tableLen m = some len → len ≤ i.toNat := by
  intro len hl
  by_contra hc
  rw [romRead_row hl (by omega)] at h
  exact absurd h (by simp)

/-- Both arms of R94 are one step of the modular counter. -/
theorem nextIndex_toNat {m : BitVec 2} {len : Nat} (hl : tableLen m = some len) (d : Direction) (p : BitVec 3)
    (hp : p.toNat < len) : (nextIndex len d p).toNat = moveIndex len d p.toNat 1 := by
  have hlt := p.isLt
  rcases (tableLen_cases hl).2 with rfl | rfl <;> cases d <;> simp only [nextIndex, moveIndex] <;> split <;>
    simp only [BitVec.toNat_add, BitVec.toNat_sub, BitVec.toNat_ofNat] <;> omega

theorem moveIndex_lt {len : Nat} (h : 0 < len) (d : Direction) (p j : Nat) : moveIndex len d p j < len := by
  cases d <;> exact Nat.mod_lt _ h

theorem moveIndex_zero {len : Nat} (d : Direction) {p : Nat} (hp : p < len) : moveIndex len d p 0 = p := by
  cases d <;> simp [moveIndex, Nat.mod_eq_of_lt hp]

/-- Going on from where one step led is one step further along (R122). -/
theorem moveIndex_succ {len : Nat} (h : len = 4 ∨ len = 6) (d : Direction) {p : Nat} (hp : p < len) (j : Nat) :
    moveIndex len d (moveIndex len d p 1) j = moveIndex len d p (j + 1) := by
  rcases h with rfl | rfl <;> cases d <;> simp only [moveIndex] <;> omega

/-! ### STEP -/

/-- Everything STEP can do (R120). -/
theorem stepMicro_cases {d : Direction} {s t : State} (h : stepMicro d s = some t) :
    ∃ len v, tableLen s.mode = some len ∧ romRead s.mode s.phase = some v ∧
      t = { s with
        lines := v, phase := nextIndex len d s.phase, timer := s.dwell
        trace := s.trace ++ [.W v, .H s.dwell.toNat] } := by
  unfold stepMicro readPattern advance at h
  split at h
  · exact absurd h (by simp)
  · rename_i v hv
    cases hl : tableLen s.mode with
    | none => simp [hl] at h
    | some len =>
      simp only [lineWrite_mode, hl, Option.some.injEq] at h
      exact ⟨len, v, rfl, hv, by subst h; simp [startHold, lineWrite]⟩

theorem stepMicro_eq {d : Direction} {s : State} {len : Nat} {v : Pattern} (hl : tableLen s.mode = some len)
    (hv : romRead s.mode s.phase = some v) :
    stepMicro d s = some { s with
        lines := v, phase := nextIndex len d s.phase, timer := s.dwell
        trace := s.trace ++ [.W v, .H s.dwell.toNat] } := by
  simp [stepMicro, readPattern, advance, hv, hl, startHold, lineWrite]

theorem stepMicro_none {d : Direction} {s : State} (h : stepMicro d s = none) : romRead s.mode s.phase = none := by
  by_contra hc
  obtain ⟨v, hv⟩ := Option.ne_none_iff_exists'.1 hc
  rw [romRead_eq] at hv
  split at hv
  · rename_i hin
    obtain ⟨len, hl, _⟩ := (inTable_iff _ _).1 hin
    rw [stepMicro_eq hl (by rw [romRead_eq, if_pos hin])] at h
    exact absurd h (by simp)
  · exact absurd hv (by simp)

theorem stepMicro_of_romRead_none {d : Direction} {s : State} (h : romRead s.mode s.phase = none) :
    stepMicro d s = none := by
  simp [stepMicro, readPattern, h]

/-! ### Acceptance and the ticks of a move -/

/-- Everything the acceptance of a move can do (R190 (b)). -/
theorem acceptMove_cases (n : Word) (d : Direction) (rest : Bool) (s : State) :
    (n ≠ 0#32 ∧ acceptMove n d rest s = { s with
        status := 0#2, remain := n, dir := d, rest := rest, busy := true, sub := .emit }) ∨
    (n = 0#32 ∧ rest = true ∧ acceptMove n d rest s = { s with
        status := 0#2, remain := n, dir := d, rest := rest, lines := 0#4, trace := s.trace ++ [.W 0#4] }) ∨
    (n = 0#32 ∧ rest = false ∧ acceptMove n d rest s = { s with
        status := 0#2, remain := n, dir := d, rest := rest }) := by
  unfold acceptMove
  by_cases hn : n = 0#32
  · cases rest
    · exact .inr (.inr ⟨hn, rfl, by simp [hn, setOk, okCode]⟩)
    · exact .inr (.inl ⟨hn, rfl, by simp [hn, setOk, okCode, lineWrite]⟩)
  · exact .inl ⟨hn, by simp [hn, setOk, okCode]⟩

/-- Everything an EMIT tick can do (R191). -/
theorem emitTick_cases {s t : State} (h : emitTick s = .next t) :
    ∃ len v, tableLen s.mode = some len ∧ romRead s.mode s.phase = some v ∧
      t = { s with
        lines := v, phase := nextIndex len s.dir s.phase, timer := s.dwell
        trace := s.trace ++ [.W v, .H s.dwell.toNat], remain := s.remain - 1#32, sub := .wait } := by
  unfold emitTick at h
  split at h
  · exact absurd h (by simp)
  · rename_i u hu
    obtain ⟨len, v, hl, hv, rfl⟩ := stepMicro_cases hu
    exact ⟨len, v, hl, hv, by simpa using h.symm⟩

theorem emitTick_eq {s : State} {len : Nat} {v : Pattern} (hl : tableLen s.mode = some len)
    (hv : romRead s.mode s.phase = some v) :
    emitTick s = .next { s with
        lines := v, phase := nextIndex len s.dir s.phase, timer := s.dwell
        trace := s.trace ++ [.W v, .H s.dwell.toNat], remain := s.remain - 1#32, sub := .wait } := by
  simp [emitTick, stepMicro_eq hl hv]

/-- Everything a WAIT tick can do (R192). -/
theorem waitTick_cases (s : State) :
    (s.timer ≠ 0#32 ∧ waitTick s = { s with timer := s.timer - 1#32 }) ∨
    (s.timer = 0#32 ∧ s.remain ≠ 0#32 ∧ waitTick s = { s with sub := .emit }) ∨
    (s.timer = 0#32 ∧ s.remain = 0#32 ∧ waitTick s = finishMove s) := by
  unfold waitTick
  split
  · exact .inl ⟨‹_›, rfl⟩
  · split
    · exact .inr (.inl ⟨by simpa using ‹¬ s.timer ≠ 0#32›, ‹_›, rfl⟩)
    · exact .inr (.inr ⟨by simpa using ‹¬ s.timer ≠ 0#32›, by simpa using ‹¬ s.remain ≠ 0#32›, rfl⟩)

end Sys2Proof.Machine
end

