-- ==== Sys2Proof/Laws/Step.lean ====
section
/-! SUPPORT. What an accepted command and a tick can do, said once, and how runs of ticks compose. -/

namespace Sys2Proof.Machine

/-! ### Accepting a command -/

/-- Everything an instruction can do at the tick of its acceptance (R190): an error, a CONSTRUCT, a new dwell, a
de-energize, or the start of a move. -/
theorem exec_cases (i : Instr) (s : State) :
    (∃ e, exec i s = .next (raise e s)) ∨
    (∃ mode, i = .construct mode ∧ mode ≤ 2 ∧ exec i s = .next { s with
      mode := BitVec.ofNat 2 mode, lines := 0#4, phase := 0#3, dwell := baseDwell, configured := true
      status := 0#2, trace := s.trace ++ [.W 0#4] }) ∨
    (∃ percent, i = .setSpeed percent ∧ 1 ≤ percent ∧ s.configured = true ∧
      exec i s = .next { s with dwell := dwellOfPercent percent, status := 0#2 }) ∨
    (exec i s = .next { s with lines := 0#4, status := 0#2, trace := s.trace ++ [.W 0#4] }) ∨
    (∃ n d rest, moveOf i = some (n, d, rest) ∧ s.configured = true ∧ exec i s = .next (acceptMove n d rest s)) := by
  cases i with
  | construct mode =>
    by_cases hm : 2 < mode
    · exact .inl ⟨.configurationError, by simp [exec, execConstruct, selectTable, hm]⟩
    · exact .inr (.inl ⟨mode, rfl, by omega, by
        simp [exec, execConstruct, selectTable, hm, setOk, okCode, lineWrite]⟩)
  | setSpeed percent =>
    cases hc : s.configured with
    | false => exact .inl ⟨.notConfigured, by simp [exec, execSetSpeed, hc]⟩
    | true =>
      by_cases hp : 1 ≤ percent
      · exact .inr (.inr (.inl ⟨percent, rfl, hp, rfl, by simp [exec, execSetSpeed, hc, hp, setOk, okCode]⟩))
      · exact .inr (.inr (.inr (.inl (by simp [exec, execSetSpeed, hc, hp, setOk, okCode, lineWrite]))))
  | oneStep d =>
    cases hc : s.configured with
    | false => exact .inl ⟨.notConfigured, by simp [exec, execOneStep, hc]⟩
    | true => exact .inr (.inr (.inr (.inr ⟨_, _, _, rfl, rfl, by simp [exec, execOneStep, hc]⟩)))
  | stepN count =>
    cases hc : s.configured with
    | false => exact .inl ⟨.notConfigured, by simp [exec, execStepN, hc]⟩
    | true => exact .inr (.inr (.inr (.inr ⟨_, _, _, rfl, rfl, by simp [exec, execStepN, hc]⟩)))
  | stepAngle angle =>
    cases hc : s.configured with
    | false => exact .inl ⟨.notConfigured, by simp [exec, execStepAngle, hc]⟩
    | true => exact .inr (.inr (.inr (.inr ⟨_, _, _, rfl, rfl, by simp [exec, execStepAngle, hc]⟩)))
  | shutdown => exact .inr (.inr (.inr (.inl (by simp [exec, execShutdown, setOk, okCode, lineWrite]))))
  | reserved6 => exact .inl ⟨.illegalCommand, rfl⟩
  | reserved7 => exact .inl ⟨.illegalCommand, rfl⟩

/-- No instruction stops: at the tick of its acceptance it answers a next state, in every state. -/
theorem exec_completes (i : Instr) (s : State) : ∃ t, exec i s = .next t := by
  rcases exec_cases i s with ⟨_, h⟩ | ⟨_, _, _, h⟩ | ⟨_, _, _, _, h⟩ | h | ⟨_, _, _, _, _, h⟩ <;> exact ⟨_, h⟩

/-- A word the decoder rejects takes IllegalCommand (R81, R154). -/
theorem takeReject_eq (r : DecodeReject) (s : State) : takeReject r s = .next (raise .illegalCommand s) := by
  cases r; rfl

/-- Everything the acceptance of a word can do. -/
theorem accept_cases (w : CommandWord) (s : State) :
    (∃ r, decode w = .reject r ∧ accept w s = .next (raise .illegalCommand s)) ∨
    (∃ i, decode w = .instr i ∧ accept w s = exec i s) := by
  unfold accept
  cases hd : decode w with
  | reject r => exact .inl ⟨r, rfl, takeReject_eq r s⟩
  | instr i => exact .inr ⟨i, rfl, rfl⟩

/-! ### The port -/

theorem accepted_some {s : State} {w : CommandWord} (h : s.accepted = some w) :
    s.rst = false ∧ s.busy = false ∧ ∃ q, s.cmdIn = .present w :: q := by
  unfold State.accepted at h
  split at h
  · rename_i hc
    refine ⟨hc.1, by simpa [State.cmdReady] using hc.2, ?_⟩
    unfold State.presented at h
    split at h <;> simp_all
  · exact absurd h (by simp)

theorem accepted_of_busy {s : State} (h : s.busy = true) : s.accepted = none := by
  simp [State.accepted, State.cmdReady, h]

theorem accepted_of_rst {s : State} (h : s.rst = true) : s.accepted = none := by
  simp [State.accepted, h]

theorem accepted_of_ready {s : State} (hr : s.rst = false) (hb : s.busy = false) : s.accepted = s.presented := by
  simp [State.accepted, State.cmdReady, hr, hb]

/-! ### Ticks -/

theorem step_of_rst {s : State} (h : s.rst = true) : step s = .next (resetTick s.portTick) := by
  simp [step, h]

theorem step_of_emit {s : State} (hr : s.rst = false) (hb : s.busy = true) (hs : s.sub = .emit) :
    step s = emitTick s.portTick := by
  simp [step, hr, hb, busyTick, hs]

theorem step_of_wait {s : State} (hr : s.rst = false) (hb : s.busy = true) (hs : s.sub = .wait) :
    step s = .next (waitTick s.portTick) := by
  simp [step, hr, hb, busyTick, hs]

theorem step_of_idle {s : State} (hr : s.rst = false) (hb : s.busy = false) (ha : s.accepted = none) :
    step s = .next s.portTick := by
  simp [step, hr, hb, ha]

theorem step_of_accepted {s : State} {w : CommandWord} (ha : s.accepted = some w) : step s = accept w s.portTick := by
  obtain ⟨hr, hb, _⟩ := accepted_some ha
  simp [step, hr, hb, ha]

/-- Everything a tick can do. -/
theorem step_cases (s : State) :
    (s.rst = true ∧ step s = .next (resetTick s.portTick)) ∨
    (s.rst = false ∧ s.busy = true ∧ s.sub = .emit ∧ step s = emitTick s.portTick) ∨
    (s.rst = false ∧ s.busy = true ∧ s.sub = .wait ∧ step s = .next (waitTick s.portTick)) ∨
    (s.rst = false ∧ s.busy = false ∧ s.accepted = none ∧ step s = .next s.portTick) ∨
    (∃ w, s.rst = false ∧ s.busy = false ∧ s.accepted = some w ∧ step s = accept w s.portTick) := by
  cases hr : s.rst with
  | true => exact .inl ⟨rfl, step_of_rst hr⟩
  | false =>
    cases hb : s.busy with
    | true =>
      cases hs : s.sub with
      | emit => exact .inr (.inl ⟨rfl, rfl, rfl, step_of_emit hr hb hs⟩)
      | wait => exact .inr (.inr (.inl ⟨rfl, rfl, rfl, step_of_wait hr hb hs⟩))
    | false =>
      cases ha : s.accepted with
      | none => exact .inr (.inr (.inr (.inl ⟨rfl, rfl, rfl, step_of_idle hr hb ha⟩)))
      | some w => exact .inr (.inr (.inr (.inr ⟨w, rfl, rfl, rfl, step_of_accepted ha⟩)))

/-! ### Runs -/

theorem runTicks_succ {s t : State} (h : step s = .next t) (k : Nat) : runTicks (k + 1) s = runTicks k t := by
  simp [runTicks, h]

/-- A run of `j` ticks that ends in a state goes on as a run from there. -/
theorem runTicks_add {j : Nat} {s t : State} (h : runTicks j s = .next t) (k : Nat) :
    runTicks (j + k) s = runTicks k t := by
  induction j generalizing s with
  | zero =>
    simp only [runTicks, Host.Outcome.next.injEq] at h
    simp [h]
  | succ j ih =>
    rw [show j + 1 + k = (j + k) + 1 by omega]
    simp only [runTicks] at h ⊢
    split at h
    · exact ih h
    · exact absurd h (by simp)
    · exact absurd h (by simp)

/-- The host's own run of the machine is `runTicks`. -/
theorem core_run_eq_runTicks (k : Nat) (s : State) : Host.Core.run Sys2Proof.core k s = runTicks k s := by
  induction k generalizing s with
  | zero => rfl
  | succ k ih =>
    have hstep : Host.Core.step Sys2Proof.core s = step s := rfl
    simp only [Host.Core.run, runTicks, hstep]
    cases step s with
    | next t => exact ih t
    | fault r => rfl
    | refused r => rfl

/-- The host's schedule for `rst`, one tick on. -/
theorem NoReset.rst {k : Nat} {s : State} (h : NoReset (k + 1) s) : s.rst = false := by
  cases hr : s.rstIn with
  | nil => simp [State.rst, hr]
  | cons b q =>
    have hb : b = false := h b (by simp [hr])
    simp [State.rst, hr, hb]

theorem NoReset.tail {k : Nat} {s t : State} (h : NoReset (k + 1) s) (ht : t.rstIn = s.rstIn.tail) : NoReset k t := by
  intro b hb
  rw [ht] at hb
  refine h b ?_
  cases hr : s.rstIn with
  | nil => simp [hr] at hb
  | cons c q => simp [hr] at hb ⊢; exact .inr hb

theorem NoReset.mono {j k : Nat} {s : State} (hjk : j ≤ k) (h : NoReset k s) : NoReset j s := by
  intro b hb
  exact h b ((List.take_subset_take_left s.rstIn hjk) hb)

end Sys2Proof.Machine
end

