-- ==== Sys2Proof/Laws/Encoding.lean ====
section
/-! SUPPORT. What decoding gives on a word laid out as `{op, arg}`, and the numbers the operands stand for. -/

namespace Sys2Proof

/-- A signed operand in its range survives the 32-bit field (R75). -/
theorem toInt_ofInt_of_fits (z : Int) (h : fitsSigned z = true) : (BitVec.ofInt 32 z).toInt = z := by
  simp [fitsSigned] at h
  apply BitVec.toInt_ofInt_eq_self <;> omega

/-- The decoding procedure on `{op, arg}` (R84). -/
theorem decode_packWord (op arg) : decode (packWord op arg) = (match op.toNat with
  | 0 => .instr (.construct arg.toNat)
  | 1 => .instr (.setSpeed arg.toInt)
  | 2 =>
    if spareBits arg = 0 then .instr (.oneStep (directionOfBit (arg.getLsbD 0)))
    else .reject (.spareDirectionBits (spareBits arg))
  | 3 => .instr (.stepN arg.toInt)
  | 4 => .instr (.stepAngle arg.toInt)
  | 5 => .instr .shutdown
  | 6 => .instr .reserved6
  | _ => .instr .reserved7) := by
  simp only [decode, Laws.OpField.of_pack] <;> rfl

/-- A word is its two fields (R71). -/
theorem packWord_fields (w : CommandWord) : packWord (opField w) (argField w) = w := by
  ext k hk
  rw [← BitVec.getLsbD_eq_getElem]
  simp only [packWord, opField, argField, BitVec.getLsbD_append]
  split
  · simp; rw [← BitVec.getLsbD_eq_getElem]; simp_all
  · simp; rw [← BitVec.getLsbD_eq_getElem]
    rw [show 32 + (k-32) = k by omega]; simp; intro _; omega

theorem op_cases (op : BitVec 3) : op = 0 ∨ op = 1 ∨ op = 2 ∨ op = 3 ∨ op = 4 ∨ op = 5 ∨ op = 6 ∨ op = 7 := by
  revert op; decide

/-- A direction operand without spare bits is the direction it names (R76, R83). -/
theorem directionArg_of_spare (arg : Word) (h : spareBits arg = 0) : directionArg (directionOfBit (arg.getLsbD 0)) = arg := by
  have h2 : arg.toNat / 2 = 0 := by
    have := congrArg BitVec.toNat h
    simp [spareBits, Nat.shiftRight_eq_div_pow] at this
    have := arg.isLt
    omega
  have : arg.toNat = 0 ∨ arg.toNat = 1 := by omega
  rcases this with h | h
  · have : arg = 0#32 := by apply BitVec.eq_of_toNat_eq; simpa using h
    subst this; rfl
  · have : arg = 1#32 := by apply BitVec.eq_of_toNat_eq; simpa using h
    subst this; rfl

namespace Machine

/-- The speed mapping does not overflow (R113). -/
theorem dwellOfPercent_toNat (p : Int) : (dwellOfPercent p).toNat = (100 * Config.baseDwell.val) / min p.toNat 100 := by
  have := Config.baseDwell.isLt
  have h2 : dwellTicks p ≤ Config.baseDwell.val * 100 := Nat.div_le_self _ _
  simp [dwellOfPercent]; rw [Nat.mod_eq_of_lt (by omega), dwellTicks, Nat.mul_comm]

theorem magnitude_toNat_of_wf (c : Int) (h : (Instr.stepN c).wf = true) : (magnitude c).toNat = c.natAbs := by
  simp [Instr.wf, fitsSigned] at h; simp [magnitude]; omega

theorem angleSteps_toNat_of_wf (c : Int) (h : (Instr.stepN c).wf = true) : (angleSteps c).toNat = (c.natAbs + 22) / 45 := by
  simp [Instr.wf, fitsSigned] at h; simp [angleSteps, nearestSteps, unitsPerStep, stepsPerRev]; omega

theorem dwellInRange_dwellOfPercent (p : Int) (hp : 1 ≤ p) : dwellInRange (dwellOfPercent p) := by
  have hB := Config.baseDwell.isLt
  have hq : 0 < min p.toNat 100 := by omega
  have h2 : (Config.baseDwell.val * 100) / min p.toNat 100 ≤ Config.baseDwell.val * 100 := Nat.div_le_self _ _
  have h3 : Config.baseDwell.val ≤ (Config.baseDwell.val * 100) / min p.toNat 100 := by
    rw [Nat.le_div_iff_mul_le hq]; exact Nat.mul_le_mul_left _ (by omega)
  have e : (dwellOfPercent p).toNat = (Config.baseDwell.val * 100) / min p.toNat 100 := by
    simp [dwellOfPercent, dwellTicks]; omega
  exact ⟨by rw [e]; exact h3, by rw [e]; omega⟩

theorem dwellInRange_baseDwell : dwellInRange baseDwell := by
  have hB := Config.baseDwell.isLt
  constructor <;> simp [baseDwell] <;> omega

/-- No command word asks for more than `2^31` steps (R77, R127). -/
theorem moveOf_toNat_le {w i n d r} (hd : decode w = .instr i) (hm : moveOf i = some (n, d, r)) : n.toNat ≤ 2^31 := by
  have hi : ∀ arg : Word, arg.toInt.natAbs ≤ 2^31 := by
    intro arg; have := BitVec.toInt_lt (x := arg); have := BitVec.le_toInt (x := arg); omega
  have key : ∀ x : Int, x.natAbs ≤ 2^31 → (magnitude x).toNat ≤ 2^31 ∧ (angleSteps x).toNat ≤ 2^31 := by
    intro x hx; simp [magnitude, angleSteps, nearestSteps, unitsPerStep, stepsPerRev]; omega
  simp only [decode] at hd
  split at hd
  · simp at hd; subst hd; simp [moveOf] at hm
  · simp at hd; subst hd; simp [moveOf] at hm
  · split at hd <;> simp at hd; subst hd; simp [moveOf] at hm; rw [← hm.1]; decide
  · simp at hd; subst hd; simp [moveOf] at hm; rw [← hm.1]; exact (key _ (hi _)).1
  · simp at hd; subst hd; simp [moveOf] at hm; rw [← hm.1]; exact (key _ (hi _)).2
  · simp at hd; subst hd; simp [moveOf] at hm
  · simp at hd; subst hd; simp [moveOf] at hm
  · simp at hd; subst hd; simp [moveOf] at hm

/-- The reserved encodings (R80, R81, R154). -/
theorem accept_reserved (op : BitVec 3) (arg : Word) (s : State) (h : op = 6 ∨ op = 7 ∨ (op = 2 ∧ arg.extractLsb' 1 31 ≠ 0)) :
   accept (packWord op arg) s = .next { s with status := 3#2 } := by
  rcases h with rfl | rfl | ⟨rfl, h⟩
  · simp [accept, decode_packWord, exec, execReserved6, raise, CmdError.code]
  · simp [accept, decode_packWord, exec, execReserved7, raise, CmdError.code]
  · have h : ¬ spareBits arg = 0 := h
    have : decode (packWord 2 arg) = _ := (decode_packWord 2 arg).trans (if_neg h)
    simp only [accept, this]; rfl

end Machine
end Sys2Proof
end

