-- ==== Sys2Proof/Laws/Moves.lean ====
section
/-! SUPPORT. How a move runs: ADVANCE repeated, the wait of one hold, one whole step, a whole move, at the tick level and at
the command level. -/

namespace Sys2Proof.Machine

/-! ### The index -/

theorem tableLen_pos {m : BitVec 2} {len} (h : tableLen m = some len) : 0 < len := by
  rcases (tableLen_cases h).2 with rfl | rfl <;> omega

/-- `k` ADVANCEs move the index along and change nothing else (R96). -/
theorem advanceTimes_eq (k : Nat) (d) (s : State) (len) (hl : tableLen s.mode = some len) (hp : s.phase.toNat < len) :
    ∃ t, advanceTimes k d s = some t ∧ t.phase.toNat = moveIndex len d s.phase.toNat k ∧ t = {s with phase := t.phase} := by
  induction k generalizing s with
  | zero => exact ⟨s, rfl, by rw [moveIndex_zero _ hp], rfl⟩
  | succ k ih =>
    have h1 := nextIndex_toNat hl d s.phase hp
    obtain ⟨t, ht, hp', hs⟩ := ih {s with phase := nextIndex len d s.phase} hl (by simp only [h1]; exact moveIndex_lt (tableLen_pos hl) _ _ _)
    refine ⟨t, by simp [advanceTimes, advance, hl, ht], ?_, ?_⟩
    · rw [hp']; simp only [h1]; exact moveIndex_succ (tableLen_cases hl).2 d hp k
    · rw [hs]

/-! ### Port -/

/-- An idle block with `rst = 0` takes whatever the host presents, so the schedule moves on (R70, R190). -/
theorem portTick_of_ready {s : State} (hr : s.rst = false) (hb : s.busy = false) :
    s.portTick = { s with rstIn := s.rstIn.tail, cmdIn := s.cmdIn.tail } := by
  simp only [State.portTick, accepted_of_ready hr hb, State.presented]
  cases s.cmdIn with
  | nil => rfl
  | cons m q => cases m <;> rfl

/-! ### Holds -/

theorem waitTick_status (s : State) : (waitTick s).status = s.status := by
  rcases waitTick_cases s with ⟨_, h⟩ | ⟨_, _, h⟩ | ⟨_, _, h⟩ <;> rw [h]; simp

theorem acceptMove_status (n d r s) : (acceptMove n d r s).status = 0#2 := by
  rcases acceptMove_cases n d r s with ⟨_, h⟩ | ⟨_, _, h⟩ | ⟨_, _, h⟩ <;> rw [h]

/-- `k` ticks into a hold (R192). -/
theorem runTicks_wait (k : Nat) (s : State) (hb : s.busy = true) (hs : s.sub = .wait) (hk : k ≤ s.timer.toNat) (hn : NoReset k s) :
   ∃ q, runTicks k s = .next {s with timer := BitVec.ofNat 32 (s.timer.toNat - k), rstIn := s.rstIn.drop k, cmdIn := q} := by
  induction k generalizing s with
  | zero => exact ⟨s.cmdIn, by simp [runTicks]⟩
  | succ k ih =>
    have hr := hn.rst
    have hst := step_of_wait hr hb hs
    have hne : s.portTick.timer ≠ 0#32 := by
      intro h; have := congrArg BitVec.toNat h; simp at this; rw [this] at hk; simp at hk
    have hw : waitTick s.portTick = { s.portTick with timer := s.portTick.timer - 1#32 } := by
      rcases waitTick_cases s.portTick with ⟨_, h⟩ | ⟨h, _⟩ | ⟨h, _⟩
      · exact h
      · exact absurd h hne
      · exact absurd h hne
    rw [hw] at hst
    have ht : (s.timer - 1#32).toNat = s.timer.toNat - 1 := by
      have := s.timer.isLt
      rw [BitVec.toNat_sub]; simp; omega
    obtain ⟨q, hu⟩ := ih { s.portTick with timer := s.portTick.timer - 1#32 } hb hs (by simp [ht]; omega) (hn.tail rfl)
    refine ⟨q, by rw [runTicks_succ hst, hu]; simp [State.portTick, ht, Nat.sub_sub, Nat.add_comm]⟩

theorem NoReset.drop {j k : Nat} {s t : State} (h : NoReset (j + k) s) (ht : t.rstIn = s.rstIn.drop j) : NoReset k t := by
  intro b hb; rw [ht] at hb; refine h b ?_
  rw [List.take_add]; exact List.mem_append_right _ hb

/-- A whole hold and the tick that ends it (R192). -/
theorem runTicks_hold (s : State) (hb : s.busy = true) (hs : s.sub = .wait) (hn : NoReset (s.timer.toNat+1) s) :
  ∃ q, runTicks (s.timer.toNat + 1) s = .next (if s.remain ≠ 0#32 then {s with sub := .emit, timer := 0#32, rstIn := s.rstIn.drop (s.timer.toNat+1), cmdIn := q} else finishMove {s with timer := 0#32, rstIn := s.rstIn.drop (s.timer.toNat+1), cmdIn := q}) := by
  obtain ⟨q, hu⟩ := runTicks_wait s.timer.toNat s hb hs (Nat.le_refl _) (hn.mono (by omega))
  rw [Nat.sub_self] at hu
  have hr : State.rst { s with timer := BitVec.ofNat 32 0, rstIn := s.rstIn.drop s.timer.toNat, cmdIn := q } = false := (NoReset.drop (k := 1) hn rfl).rst
  generalize hu' : ({ s with timer := BitVec.ofNat 32 0, rstIn := s.rstIn.drop s.timer.toNat, cmdIn := q } : State) = u at hu hr
  have hst := step_of_wait (s := u) hr (by rw [← hu']; exact hb) (by rw [← hu']; exact hs)
  refine ⟨u.portTick.cmdIn, ?_⟩
  rw [runTicks_add hu 1, runTicks_succ hst]
  simp only [runTicks]
  have ht : u.portTick.timer = 0#32 := by rw [← hu']; rfl
  have key : u.portTick = {s with timer := 0#32, rstIn := s.rstIn.drop (s.timer.toNat+1), cmdIn := u.portTick.cmdIn} := by
    rw [← hu']; simp [State.portTick]
  have hrm : u.portTick.remain = s.remain := by rw [← hu']; rfl
  by_cases h : s.remain = 0#32
  · rw [if_neg (by simpa using h)]
    rw [show waitTick u.portTick = finishMove u.portTick by simp [waitTick, ht, hrm, h, -portTick_timer, -portTick_remain]]
    conv => lhs; rw [key]
  · rw [if_pos h]
    rw [show waitTick u.portTick = {u.portTick with sub := .emit} by simp [waitTick, ht, hrm, h, -portTick_timer, -portTick_remain]]
    conv => lhs; rw [key]

/-! ### One step -/

/-- The block one step and its hold later, but for `SUB` and `BUSY`. -/
def afterStep (s : State) (len : Nat) (q : List HostMove) : State := { s with
        lines := row s.mode s.phase.toNat, phase := nextIndex len s.dir s.phase, timer := 0#32
        trace := s.trace ++ [.W (row s.mode s.phase.toNat), .H s.dwell.toNat], remain := s.remain - 1#32, rstIn := s.rstIn.drop (s.dwell.toNat + 2), cmdIn := q }

/-- One whole step: `DWELL + 2` ticks from its EMIT tick (R191, R192). -/
theorem runTicks_oneStep (s : State) (len) (hb : s.busy = true) (hs : s.sub = .emit) (hl : tableLen s.mode = some len) (hp : s.phase.toNat < len)
   (hn : NoReset (s.dwell.toNat + 2) s) : ∃ q,
    runTicks (s.dwell.toNat + 2) s = .next (if s.remain - 1#32 ≠ 0#32 then {afterStep s len q with sub := .emit} else finishMove {afterStep s len q with sub := .wait}) := by
  have hr := NoReset.rst hn
  have h1 : step s = _ := (step_of_emit hr hb hs).trans (emitTick_eq (s := s.portTick) hl (romRead_row hl hp))
  have hh := runTicks_hold (s := { s.portTick with
        lines := row s.portTick.mode s.portTick.phase.toNat, phase := nextIndex len s.portTick.dir s.portTick.phase, timer := s.portTick.dwell
        trace := s.portTick.trace ++ [.W (row s.portTick.mode s.portTick.phase.toNat), .H s.portTick.dwell.toNat], remain := s.portTick.remain - 1#32, sub := .wait }) hb rfl (NoReset.tail (k := s.dwell.toNat + 1) hn rfl)
  obtain ⟨q, ht⟩ := hh
  refine ⟨q, ?_⟩
  rw [show s.dwell.toNat + 2 = (s.dwell.toNat + 1) + 1 by omega, runTicks_succ h1]
  refine ht.trans ?_
  simp [State.portTick, afterStep]

theorem busy_during_step (s : State) (len) (hb : s.busy = true) (hs : s.sub = .emit) (hl : tableLen s.mode = some len) (hp : s.phase.toNat < len)
   (hn : NoReset (s.dwell.toNat + 2) s) : ∀ k < s.dwell.toNat + 2, ∃ x, runTicks k s = .next x ∧ x.cmdReady = false := by
  intro k hk
  cases k with
  | zero => exact ⟨s, rfl, by simp [State.cmdReady, hb]⟩
  | succ k =>
    have hr := NoReset.rst hn
    have h1 : step s = _ := (step_of_emit hr hb hs).trans (emitTick_eq (s := s.portTick) hl (romRead_row hl hp))
    have := runTicks_wait k (s := { s.portTick with
        lines := row s.portTick.mode s.portTick.phase.toNat, phase := nextIndex len s.portTick.dir s.portTick.phase, timer := s.portTick.dwell
        trace := s.portTick.trace ++ [.W (row s.portTick.mode s.portTick.phase.toNat), .H s.portTick.dwell.toNat], remain := s.portTick.remain - 1#32, sub := .wait }) hb rfl (by simp; omega)
         ((NoReset.tail (k := s.dwell.toNat + 1) hn rfl).mono (by omega))
    obtain ⟨q, h⟩ := this
    exact ⟨_, by rw [runTicks_succ h1]; exact h, by simp [State.cmdReady, hb]⟩

/-! ### Whole moves -/

theorem stepEvents_succ (m D r n) : stepEvents m D r (n+1) = [.W (row m (r 0)), .H D] ++ stepEvents m D (fun j => r (j+1)) n := by
  simp [stepEvents, List.range_succ_eq_map, List.flatMap_map]

theorem stepEvents_congr (m D r r' n) (h : ∀ j < n, r j = r' j) : stepEvents m D r n = stepEvents m D r' n := by
  unfold stepEvents
  apply List.flatMap_congr
  intro j hj
  rw [h j (by simpa using hj)]

theorem holdTicks_stepEvents (m D r n) : holdTicks (stepEvents m D r n) = n * D := by
  induction n generalizing r with
  | zero => simp [stepEvents, holdTicks]
  | succ n ih =>
    rw [stepEvents_succ]
    have := ih (fun j => r (j+1))
    simp [holdTicks] at this ⊢
    rw [this, Nat.succ_mul]; omega

theorem toNat_sub_one (x : Word) (n) (h : x.toNat = n + 1) : (x - 1#32).toNat = n := by
  have := x.isLt; rw [BitVec.toNat_sub]; simp; omega

/-- A move in flight, from the EMIT tick of its first step to its end. -/
theorem runTicks_move (n : Nat) (s : State) (len) (hb : s.busy = true) (hs : s.sub = .emit) (hl : tableLen s.mode = some len) (hp : s.phase.toNat < len)
   (hrem : s.remain.toNat = n + 1)
   (hn : NoReset ((n+1) * (s.dwell.toNat + 2)) s) : ∃ p q r, p.toNat = moveIndex len s.dir s.phase.toNat (n+1) ∧
    runTicks ((n+1) * (s.dwell.toNat + 2)) s = .next (finishMove { s with
       phase := p, lines := row s.mode (moveIndex len s.dir s.phase.toNat n), timer := 0#32, remain := 0#32, sub := .wait,
       trace := s.trace ++ stepEvents s.mode s.dwell.toNat (moveIndex len s.dir s.phase.toNat) (n+1), cmdIn := q, rstIn := r}) ∧
    ∀ k < (n+1) * (s.dwell.toNat + 2), ∃ x, runTicks k s = .next x ∧ x.cmdReady = false := by
  induction n generalizing s with
  | zero =>
    have e : (0+1) * (s.dwell.toNat + 2) = s.dwell.toNat + 2 := by omega
    rw [e] at hn ⊢
    obtain ⟨q, h⟩ := runTicks_oneStep s len hb hs hl hp hn
    have h0 : s.remain - 1#32 = 0#32 := by apply BitVec.eq_of_toNat_eq; rw [toNat_sub_one _ 0 hrem]; rfl
    rw [if_neg (by simpa using h0)] at h
    refine ⟨_, q, s.rstIn.drop (s.dwell.toNat+2), nextIndex_toNat hl s.dir s.phase hp, ?_, busy_during_step s len hb hs hl hp hn⟩
    rw [h]; simp only [afterStep, h0, moveIndex_zero s.dir hp, stepEvents]
    simp [moveIndex_zero s.dir hp]
  | succ n ih =>
    have e : (n+1+1) * (s.dwell.toNat + 2) = (s.dwell.toNat + 2) + (n+1)*(s.dwell.toNat + 2) := by rw [Nat.succ_mul]; omega
    rw [e] at hn ⊢
    obtain ⟨q, h⟩ := runTicks_oneStep s len hb hs hl hp (hn.mono (by omega))
    have h1 := toNat_sub_one _ (n+1) hrem
    have h0 : s.remain - 1#32 ≠ 0#32 := by intro h; rw [h] at h1; simp at h1
    rw [if_pos h0] at h
    have hi := nextIndex_toNat hl s.dir s.phase hp
    obtain ⟨p, q', r, hp', hrun, hbz⟩ := ih { afterStep s len q with sub := .emit } hb rfl hl (by simp only [afterStep, hi]; exact moveIndex_lt (tableLen_pos hl) _ _ _) h1 (NoReset.drop hn rfl)
    have hms : ∀ j, moveIndex len s.dir (nextIndex len s.dir s.phase).toNat j = moveIndex len s.dir s.phase.toNat (j+1) := by
      intro j; rw [hi]; exact moveIndex_succ (tableLen_cases hl).2 s.dir hp j
    refine ⟨p, q', r, ?_, ?_, ?_⟩
    · rw [hp']; exact hms _
    · rw [runTicks_add h]
      refine hrun.trans ?_
      simp only [afterStep, hms, funext hms]
      rw [stepEvents_succ s.mode _ _ (n+1), moveIndex_zero s.dir hp, List.append_assoc]
    · intro k hk
      by_cases hlt : k < s.dwell.toNat + 2
      · exact busy_during_step s len hb hs hl hp (hn.mono (by omega)) k hlt
      · obtain ⟨x, hx, hxr⟩ := hbz (k - (s.dwell.toNat + 2)) (by simp only [afterStep]; omega)
        refine ⟨x, ?_, hxr⟩
        rw [← hx, ← runTicks_add h, show s.dwell.toNat + 2 + (k - (s.dwell.toNat + 2)) = k by omega]

/-- The loop of MOVE (R121, R122). -/
theorem moveLoop_eq (n : Nat) (s : State) (len) (hl : tableLen s.mode = some len) (hp : s.phase.toNat < len) (hrem : s.remain.toNat = n) :
   ∃ p tm, p.toNat = moveIndex len s.dir s.phase.toNat n ∧
   moveLoop n s = some { s with phase := p, lines := (if n = 0 then s.lines else row s.mode (moveIndex len s.dir s.phase.toNat (n-1))), remain := 0#32, timer := tm, trace := s.trace ++ stepEvents s.mode s.dwell.toNat (moveIndex len s.dir s.phase.toNat) n } := by
  induction n generalizing s with
  | zero =>
    refine ⟨s.phase, s.timer, (moveIndex_zero s.dir hp).symm, ?_⟩
    have : s.remain = 0#32 := by apply BitVec.eq_of_toNat_eq; simpa using hrem
    simp only [moveLoop, stepEvents]
    simp
    rw [← this]
  | succ n ih =>
    have h1 := toNat_sub_one _ n hrem
    have hi := nextIndex_toNat hl s.dir s.phase hp
    have hms : ∀ j, moveIndex len s.dir (nextIndex len s.dir s.phase).toNat j = moveIndex len s.dir s.phase.toNat (j+1) := by
      intro j; rw [hi]; exact moveIndex_succ (tableLen_cases hl).2 s.dir hp j
    have hst := stepMicro_eq (d := s.dir) (s := {s with remain := s.remain - 1#32}) hl (romRead_row hl hp)
    obtain ⟨p, tm, hp', hrun⟩ := ih { s with
        lines := row s.mode s.phase.toNat, phase := nextIndex len s.dir s.phase, timer := s.dwell, remain := s.remain - 1#32
        trace := s.trace ++ [.W (row s.mode s.phase.toNat), .H s.dwell.toNat] } hl (by simp only [hi]; exact moveIndex_lt (tableLen_pos hl) _ _ _) h1
    refine ⟨p, tm, by rw [hp']; exact hms _, ?_⟩
    simp only [moveLoop, hst]
    refine hrun.trans ?_
    simp only [hms, funext hms]
    rw [stepEvents_succ s.mode _ _ n, moveIndex_zero s.dir hp, List.append_assoc]
    congr 1
    cases n with
    | zero => simp [moveIndex_zero s.dir hp]
    | succ n => simp [Nat.add_comm]

/-- The three movement commands at both levels (R123, R124, R126). -/
theorem exec_of_moveOf (i n d r s) (h : moveOf i = some (n, d, r)) (hc : s.configured = true) : exec i s = .next (acceptMove n d r s) ∧ command i s = commandMove n d r s := by
  cases i <;> simp [moveOf] at h <;> obtain ⟨rfl, rfl, rfl⟩ := h <;> simp [exec, command, execOneStep, execStepN, execStepAngle, hc]

end Sys2Proof.Machine
end

