-- ==== Sys2Proof/Laws/Writers.lean ====
section
/-! SUPPORT. Who writes which register: what a tick can do to the configuration registers, which registers a WAIT tick does
not look at, the latest write of a trace. -/

namespace Sys2Proof.Machine

theorem lastWrite_append_W (tr : List Event) (v : Pattern) : lastWrite (tr ++ [.W v]) = v := by simp [lastWrite]

theorem lastWrite_append_W_H (tr : List Event) (v : Pattern) (d) : lastWrite (tr ++ [.W v, .H d]) = v := by simp [lastWrite]

/-- Everything a tick can do to `CONFIGURED`, `MODE`, `PHASE` and `DWELL`. -/
theorem step_writes_cases (s t : State) (h : step s = .next t) :
   s.rst = true ∨
   (s.rst = false ∧ s.busy = true ∧ t.mode = s.mode ∧ t.dwell = s.dwell ∧ t.configured = s.configured ∧ (t.phase = s.phase ∨ (s.sub = .emit ∧ ∃ len, tableLen s.mode = some len ∧ t.phase = nextIndex len s.dir s.phase))) ∨
   (t.mode = s.mode ∧ t.dwell = s.dwell ∧ t.configured = s.configured ∧ t.phase = s.phase) ∨
   (∃ w m, s.accepted = some w ∧ decode w = .instr (.construct m) ∧ m ≤ 2 ∧ t.mode = BitVec.ofNat 2 m ∧ t.dwell = baseDwell ∧ t.configured = true ∧ t.phase = 0#3) ∨
   (∃ w p, s.accepted = some w ∧ decode w = .instr (.setSpeed p) ∧ 1 ≤ p ∧ t.mode = s.mode ∧ t.dwell = dwellOfPercent p ∧ t.configured = s.configured ∧ t.phase = s.phase) := by
  rcases step_cases s with ⟨hr, h'⟩ | ⟨hr, hb, hs, h'⟩ | ⟨hr, hb, hs, h'⟩ | ⟨hr, hb, ha, h'⟩ | ⟨w, hr, hb, ha, h'⟩
  · exact .inl hr
  · rw [h'] at h; obtain ⟨len, v, hl, hv, rfl⟩ := emitTick_cases h
    exact .inr (.inl ⟨hr, hb, rfl, rfl, rfl, .inr ⟨hs, len, hl, rfl⟩⟩)
  · rw [h'] at h; simp at h; subst h
    rcases waitTick_cases s.portTick with ⟨_, h⟩ | ⟨_, _, h⟩ | ⟨_, _, h⟩ <;> rw [h] <;> refine .inr (.inl ⟨hr, hb, ?_, ?_, ?_, .inl ?_⟩) <;> simp
  · rw [h'] at h; simp at h; subst h; exact .inr (.inr (.inl ⟨rfl, rfl, rfl, rfl⟩))
  · rw [h'] at h
    rcases accept_cases w s.portTick with ⟨r, _, h'⟩ | ⟨i, hd, h'⟩
    · rw [h'] at h; simp at h; subst h; exact .inr (.inr (.inl ⟨rfl, rfl, rfl, rfl⟩))
    · rw [h'] at h
      rcases exec_cases i s.portTick with ⟨_, h'⟩ | ⟨m, rfl, hm, h'⟩ | ⟨p, rfl, hp, hc, h'⟩ | h' | ⟨n, d, r, hmo, hc, h'⟩ <;> rw [h'] at h <;> simp at h <;> subst h
      · exact .inr (.inr (.inl ⟨rfl, rfl, rfl, rfl⟩))
      · exact .inr (.inr (.inr (.inl ⟨w, m, ha, hd, hm, rfl, rfl, rfl, rfl⟩)))
      · exact .inr (.inr (.inr (.inr ⟨w, p, ha, hd, hp, rfl, rfl, rfl, rfl⟩)))
      · exact .inr (.inr (.inl ⟨rfl, rfl, rfl, rfl⟩))
      · rcases acceptMove_cases n d r s.portTick with ⟨hn, h⟩ | ⟨_, _, h⟩ | ⟨_, _, h⟩ <;> rw [h] <;> exact .inr (.inr (.inl ⟨rfl, rfl, rfl, rfl⟩))

theorem waitTick_with_status (s : State) (c) : waitTick { s with status := c } = { waitTick s with status := c } := by
  by_cases h1 : s.timer = 0#32 <;> by_cases h2 : s.remain = 0#32 <;> cases h3 : s.rest <;> simp [waitTick, finishMove, h1, h2, h3, lineWrite]

theorem waitTick_with_cmdIn (s : State) (c) : waitTick { s with cmdIn := c } = { waitTick s with cmdIn := c } := by
  by_cases h1 : s.timer = 0#32 <;> by_cases h2 : s.remain = 0#32 <;> cases h3 : s.rest <;> simp [waitTick, finishMove, h1, h2, h3, lineWrite]

theorem moveLoop_rest (n s t) (h : moveLoop n s = some t) : t.rest = s.rest := by
  induction n generalizing s with
  | zero => simp [moveLoop] at h; rw [h]
  | succ n ih =>
    simp only [moveLoop] at h
    split at h
    · simp at h
    · rename_i u hu
      obtain ⟨_, _, _, _, rfl⟩ := stepMicro_cases hu
      rw [ih _ h]

/-- States alike but for dead registers see the same inputs. -/
theorem SameLive.portTick {s t : State} (h : SameLive s t) : s.rst = t.rst ∧ s.accepted = t.accepted ∧ SameLive s.portTick t.portTick := by
  have hr : s.rst = t.rst := by simp [State.rst, h.rstIn]
  have ha : s.accepted = t.accepted := by simp [State.accepted, State.cmdReady, State.presented, hr, h.busy, h.cmdIn]
  exact ⟨hr, ha, ⟨h.1, h.2, h.3, h.4, h.5, by simp [h.rstIn], by simp [h.cmdIn, ha], h.8, h.9, h.10, h.11, h.12, h.13, h.14, h.15⟩⟩

end Sys2Proof.Machine
end

