-- ==== Sys2Proof/Tests/Slice0.lean ====
section
/-! SUPPORT. Tests of one step each, with expected results from spec/95_test_vectors.md, and for every obligation that has
hypotheses a witness that meets them. -/

namespace Sys2Proof.Machine

/-! ### Ill-formed commands are refused (R74 to R78: the operand must fit 32 bits) -/

theorem test_wf_refuses_wide_mode : (Instr.construct (2 ^ 32)).wf = false := by decide
theorem test_wf_refuses_wide_percent : (Instr.setSpeed (2 ^ 31)).wf = false := by decide
theorem test_wf_refuses_low_percent : (Instr.setSpeed (-2 ^ 31 - 1)).wf = false := by decide
theorem test_wf_refuses_wide_count : (Instr.stepN (2 ^ 31)).wf = false := by decide
theorem test_wf_refuses_low_count : (Instr.stepN (-2 ^ 31 - 1)).wf = false := by decide
theorem test_wf_refuses_wide_angle : (Instr.stepAngle (2 ^ 31)).wf = false := by decide
theorem test_wf_refuses_low_angle : (Instr.stepAngle (-2 ^ 31 - 1)).wf = false := by decide
/-- Every operand a word can carry is accepted: the ends of the ranges, and the commands without a range. -/
theorem test_wf_accepts_the_ends :
    [Instr.construct 0, .construct (2 ^ 32 - 1), .setSpeed (-2 ^ 31), .setSpeed (2 ^ 31 - 1), .oneStep .forward,
      .oneStep .reverse, .stepN (-2 ^ 31), .stepN (2 ^ 31 - 1), .stepAngle (-2 ^ 31), .stepAngle (2 ^ 31 - 1),
      .shutdown, .reserved6, .reserved7].all Instr.wf = true := by decide

/-! ### Decoding: words of L2.1, `op` written in three bits and `arg` in 32 -/

theorem test_decode_construct_halfstep :
    decode (0b000#3 ++ 0b00000000000000000000000000000010#32) = .instr (.construct 2) := by decide
theorem test_decode_construct_whole_arg :
    decode (0b000#3 ++ 0b11111111111111111111111111111111#32) = .instr (.construct 4294967295) := by decide
theorem test_decode_setSpeed_negative :
    decode (0b001#3 ++ 0b11111111111111111111111111111001#32) = .instr (.setSpeed (-7)) := by decide
theorem test_decode_setSpeed_largest :
    decode (0b001#3 ++ 0b01111111111111111111111111111111#32) = .instr (.setSpeed 2147483647) := by decide
theorem test_decode_oneStep_forward :
    decode (0b010#3 ++ 0b00000000000000000000000000000000#32) = .instr (.oneStep .forward) := by decide
theorem test_decode_oneStep_reverse :
    decode (0b010#3 ++ 0b00000000000000000000000000000001#32) = .instr (.oneStep .reverse) := by decide
theorem test_decode_spare_bit_one :
    decode (0b010#3 ++ 0b00000000000000000000000000000010#32) = .reject (.spareDirectionBits 1#31) := by decide
theorem test_decode_spare_bit_last :
    decode (0b010#3 ++ 0b10000000000000000000000000000001#32) = .reject (.spareDirectionBits 0x40000000#31) := by decide
theorem test_decode_stepN_negative :
    decode (0b011#3 ++ 0b11111111111111111111111111111100#32) = .instr (.stepN (-4)) := by decide
theorem test_decode_stepN_least :
    decode (0b011#3 ++ 0b10000000000000000000000000000000#32) = .instr (.stepN (-2147483648)) := by decide
theorem test_decode_stepAngle_degree :
    decode (0b100#3 ++ 0b00000000000000000000000100000000#32) = .instr (.stepAngle 256) := by decide
theorem test_decode_stepAngle_half_degree_back :
    decode (0b100#3 ++ 0b11111111111111111111111110000000#32) = .instr (.stepAngle (-128)) := by decide
theorem test_decode_shutdown_ignores_arg :
    decode (0b101#3 ++ 0b00000000000000000000000001100011#32) = .instr .shutdown := by decide
theorem test_decode_reserved6 :
    decode (0b110#3 ++ 0b00000000000000000000000000000000#32) = .instr .reserved6 := by decide
theorem test_decode_reserved7 :
    decode (0b111#3 ++ 0b00000000000000000000000000000101#32) = .instr .reserved7 := by decide
theorem test_encode_stepN : encode (.stepN (-4)) = 0x3FFFFFFFC#35 := by decide
theorem test_encode_oneStep : encode (.oneStep .reverse) = 0x200000001#35 := by decide
theorem test_table_word_above_the_command : decodeTableWord 40 0x800000000 = none := by decide
theorem test_table_word_shutdown : decodeTableWord 40 0x500000000 = some .shutdown := by decide

/-! ### Operands (L2.2, L2.4) -/

/-- The angle table of L2.4. -/
theorem test_angle_to_steps :
    [0, 22, 23, 45, 67, 68, 128, 256, 23040, 46080, 92160, 2147483647, 2147483648].map nearestSteps =
      [0, 0, 1, 1, 1, 2, 3, 6, 512, 1024, 2048, 47721859, 47721859] := by decide
/-- The index table of L2.2. -/
theorem test_index_counter :
    (nextIndex 4 .forward 0#3, nextIndex 4 .forward 3#3, nextIndex 4 .reverse 0#3, nextIndex 4 .reverse 1#3,
      nextIndex 6 .forward 5#3, nextIndex 6 .reverse 0#3, nextIndex 6 .forward 3#3, nextIndex 6 .reverse 4#3) =
    (1#3, 0#3, 3#3, 0#3, 0#3, 5#3, 4#3, 3#3) := by decide

/-! ### Commands, one tick each (L2.5: mode 1, index 3, the lines showing row 2) -/

/-- The state of L2.5, with the host presenting `cmd`. -/
def vectorState (cmd : List HostMove) : State :=
  { State.reset with
    configured := true, mode := 1#2, phase := 3#3, dwell := baseDwell, lines := Config.rom 10#5
    trace := [.W 0#4, .W (Config.rom 10#5), .H Config.baseDwell.val], cmdIn := cmd }

/-- The reset state, with the host presenting `cmd`. -/
def freshState (cmd : List HostMove) : State := { State.reset with cmdIn := cmd }

/-- The state of L2.5 with `n` steps of a move left to go. -/
def moveState (sub : SubState) (n timer : Word) (rest : Bool) : State :=
  { vectorState [] with busy := true, sub := sub, remain := n, timer := timer, dir := .reverse, rest := rest }

theorem test_oneStep_accepted : step (vectorState [.present 0x200000001#35]) = .next { vectorState [] with
    remain := 1#32, dir := .reverse, rest := false, busy := true, sub := .emit } := by rfl
theorem test_oneStep_unconfigured : step (freshState [.present 0x200000000#35]) =
    .next { freshState [] with status := 2#2 } := by rfl
theorem test_stepN_accepted : step (vectorState [.present 0x3FFFFFFFE#35]) = .next { vectorState [] with
    remain := 2#32, dir := .reverse, rest := false, busy := true, sub := .emit } := by rfl
theorem test_stepN_of_none : step (vectorState [.present 0x300000000#35]) = .next { vectorState [] with
    remain := 0#32, dir := .forward, rest := false } := by rfl
theorem test_stepAngle_rounds_up : step (vectorState [.present 0x4FFFFFFE9#35]) = .next { vectorState [] with
    remain := 1#32, dir := .reverse, rest := true, busy := true, sub := .emit } := by rfl
theorem test_stepAngle_of_none : step (vectorState [.present 0x400000000#35]) = .next { vectorState [] with
    remain := 0#32, dir := .forward, rest := true, lines := 0#4
    trace := [.W 0#4, .W (Config.rom 10#5), .H Config.baseDwell.val, .W 0#4] } := by rfl
theorem test_setSpeed_25 : step (vectorState [.present 0x100000019#35]) = .next { vectorState [] with
    dwell := BitVec.ofNat 32 ((Config.baseDwell.val * 100) / 25) } := by rfl
theorem test_setSpeed_stops : step (vectorState [.present 0x1FFFFFFFF#35]) = .next { vectorState [] with
    lines := 0#4, trace := [.W 0#4, .W (Config.rom 10#5), .H Config.baseDwell.val, .W 0#4] } := by rfl
theorem test_shutdown_unconfigured : step (freshState [.present 0x500000063#35]) = .next { freshState [] with
    trace := [.W 0#4] } := by rfl
theorem test_construct_anew : step (vectorState [.present 0x000000002#35]) = .next { vectorState [] with
    mode := 2#2, phase := 0#3, lines := 0#4
    trace := [.W 0#4, .W (Config.rom 10#5), .H Config.baseDwell.val, .W 0#4] } := by rfl
theorem test_construct_rejected : step (vectorState [.present 0x000000007#35]) =
    .next { vectorState [] with status := 1#2 } := by rfl
theorem test_reserved6_taken : step (vectorState [.present 0x600000000#35]) =
    .next { vectorState [] with status := 3#2 } := by rfl
theorem test_reserved7_taken : step (freshState [.present 0x700000005#35]) =
    .next { freshState [] with status := 3#2 } := by rfl
/-- IllegalCommand wins over NotConfigured (L2.5, R158). -/
theorem test_spare_bits_win : step (freshState [.present 0x200000003#35]) =
    .next { freshState [] with status := 3#2 } := by rfl

/-! ### Ticks (L2.6) -/

/-- An EMIT tick writes row 3, the row at the old index, and moves the index back to 2. -/
theorem test_emit_tick : step (moveState .emit 2#32 0#32 false) = .next { moveState .wait 1#32 baseDwell false with
    phase := 2#3, lines := Config.rom 11#5
    trace := [.W 0#4, .W (Config.rom 10#5), .H Config.baseDwell.val, .W (Config.rom 11#5), .H baseDwell.toNat] } := by rfl
theorem test_wait_tick_counts : step (moveState .wait 1#32 2#32 false) = .next (moveState .wait 1#32 1#32 false) := by rfl
theorem test_wait_tick_goes_on : step (moveState .wait 1#32 0#32 false) = .next (moveState .emit 1#32 0#32 false) := by rfl
theorem test_wait_tick_ends_the_move : step (moveState .wait 0#32 0#32 true) = .next { moveState .wait 0#32 0#32 true with
    busy := false, lines := 0#4
    trace := [.W 0#4, .W (Config.rom 10#5), .H Config.baseDwell.val, .W 0#4] } := by rfl
/-- A SHUTDOWN presented during a move is not accepted and stays presented. -/
theorem test_busy_port_keeps_the_word :
    step { moveState .wait 1#32 2#32 false with cmdIn := [.present 0x500000000#35] } =
      .next { moveState .wait 1#32 1#32 false with cmdIn := [.present 0x500000000#35] } := by rfl
/-- Reset in the middle of a move, with a command presented. -/
theorem test_reset_in_flight :
    step { moveState .wait 1#32 2#32 false with rstIn := [true], cmdIn := [.present 0x500000000#35] } =
      .next (resetTick { moveState .wait 1#32 2#32 false with cmdIn := [.present 0x500000000#35] }) := by rfl
theorem test_unreachable_address_faults :
    step { moveState .emit 1#32 0#32 false with phase := 4#3 } = .fault .unreachablePatternAddress := by rfl

/-! ### Witnesses: every obligation's hypotheses are met together -/

theorem noReset_of_nil {s : State} (h : s.rstIn = []) (k : Nat) : NoReset k s := by simp [NoReset, h]

/-- HalfStep at the last index, lines off: an idle block that meets the invariants. -/
def readyState (cmd : List HostMove) : State :=
  { vectorState cmd with mode := 2#2, phase := 5#3, lines := 0#4, trace := [.W 0#4] }

/-- The same block with a move in flight. -/
def flightState (sub : SubState) (n timer : Word) (rest : Bool) : State :=
  { readyState [] with busy := true, sub := sub, remain := n, timer := timer, dir := .reverse, rest := rest }

theorem readyState_table (cmd : List HostMove) :
    tableLen (readyState cmd).mode = some 6 ∧ (readyState cmd).phase.toNat < 6 :=
  ⟨rfl, by show (5#3).toNat < 6; decide⟩

theorem readyState_boundaryInv (cmd : List HostMove) : BoundaryInv (readyState cmd) where
  inv1 := rfl
  inv2 _ := Nat.le_refl 2
  inv3 _ := ⟨6, (readyState_table cmd).1, (readyState_table cmd).2⟩
  inv4 _ := dwellInRange_baseDwell
  inv5 h := nomatch h
  inv6 := .inl rfl

theorem readyState_inv (cmd : List HostMove) : Inv (readyState cmd) where
  mode_legal _ := Nat.le_refl 2
  phase_in_table _ := ⟨6, (readyState_table cmd).1, (readyState_table cmd).2⟩
  dwell_in_range _ := dwellInRange_baseDwell
  unconfigured_off h := nomatch h
  lines_row := .inl rfl
  lines_traced := rfl
  busy_configured h := nomatch h
  busy_ok h := nomatch h
  remain_bounded h := nomatch h
  emit_owes_step h := nomatch h
  hold_bounded h := nomatch h

/-- A move in flight meets the invariant in both sub-states. -/
theorem flightState_inv : Inv (flightState .emit 1#32 0#32 true) ∧ Inv (flightState .wait 0#32 baseDwell true) := by
  have hr := readyState_inv []
  refine ⟨⟨hr.1, hr.2, hr.3, hr.4, hr.5, hr.6, fun _ => rfl, fun _ => rfl, fun _ => ?_, fun _ _ => ?_, fun _ h => (nomatch h)⟩,
    ⟨hr.1, hr.2, hr.3, hr.4, hr.5, hr.6, fun _ => rfl, fun _ => rfl, fun _ => ?_, fun _ h => (nomatch h), fun _ _ => Nat.le_refl _⟩⟩
  · show (1#32).toNat ≤ 2 ^ 31; decide
  · show (1#32) ≠ 0#32; decide
  · show (0#32).toNat ≤ 2 ^ 31; decide

/-- Reachable states: the reset state, and a configured block one tick later. -/
theorem freshState_reachable (cmd : List HostMove) : Reachable (freshState cmd) := Reachable.start [] cmd

theorem constructed_reachable : ∃ s, Reachable s ∧ s.configured = true ∧ s.busy = false :=
  ⟨_, .tick (freshState_reachable [.present 0x000000002#35]) rfl, rfl, rfl⟩

theorem witness_DecodeEncodeRoundTrip : (Instr.stepN (-2 ^ 31)).wf = true ∧ (Instr.construct (2 ^ 32 - 1)).wf = true := by
  decide
theorem witness_EncodeOfDecodedIsCanonical :
    decode 0x5FFFFFFFF#35 = .instr .shutdown ∧ decode 0x200000001#35 = .instr (.oneStep .reverse) := by decide
theorem witness_DecodingFollowsProcedure :
    (0x1#32).extractLsb' 1 31 = 0 ∧ (0x2#32).extractLsb' 1 31 ≠ 0 ∧ (0x80000001#32).extractLsb' 1 31 ≠ 0 := by decide
theorem witness_AngleRoundsToNearestStep :
    ((-2147483648 : Int).natAbs = 2147483648 ∧ 2147483648 ≤ 2 ^ 31) ∧ (vectorState []).configured = true ∧
    ∃ t, exec (.stepAngle (-2147483648)) (vectorState []) = .next t := ⟨by decide, rfl, exec_completes _ _⟩
theorem witness_SpeedMappingArithmetic : (1 : Int) ≤ 1 ∧ (1 : Int) ≤ 100 ∧ (100 : Int) ≤ 100 := by decide
theorem witness_ConstructStartsInstance : 0 ≤ 2 ∧ 2 ≤ 2 := by decide
theorem witness_ConstructRejectsUnknownMode : 3 ≤ 3 ∧
    ∃ t, exec (.construct 3) (vectorState []) = .next t ∧ t.status = 1#2 := ⟨by decide, _, rfl, rfl⟩
theorem witness_SetSpeedProgramsDwell : (vectorState []).configured = true ∧ (1 : Int) ≤ 1 := ⟨rfl, by decide⟩
theorem witness_SetSpeedNonPositiveStops : (vectorState []).configured = true ∧ (0 : Int) ≤ 0 := ⟨rfl, by decide⟩
theorem witness_SetSpeedStopComparedWithShutdown :
    (0 : Int) ≤ 0 ∧ (vectorState []).configured = true ∧ (freshState []).configured = false := ⟨by decide, rfl, rfl⟩
theorem witness_ShutdownDeenergizes : (moveState .emit 1#32 0#32 false).busy = true := rfl
theorem witness_ShutdownIsIdempotent : ∃ t, exec .shutdown (vectorState []) = .next t := ⟨_, rfl⟩
theorem witness_UnconfiguredCommandsRaiseNotConfigured : (freshState []).configured = false ∧
    (∃ t, exec .shutdown (freshState []) = .next t) ∧ ∃ t mode, exec (.construct mode) (freshState []) = .next t :=
  ⟨rfl, ⟨_, rfl⟩, _, 3, rfl⟩
theorem witness_ReservedWordsRaiseIllegalCommand :
    ((freshState [.present 0x600000000#35]).accepted = some 0x600000000#35 ∧ opField 0x600000000#35 = 6) ∧
    ((freshState [.present 0x700000005#35]).accepted = some 0x700000005#35 ∧ opField 0x700000005#35 = 7) ∧
    ((vectorState [.present 0x200000002#35]).accepted = some 0x200000002#35 ∧
      opField 0x200000002#35 = 2 ∧ (argField 0x200000002#35).extractLsb' 1 31 ≠ 0) :=
  ⟨⟨rfl, by decide⟩, ⟨rfl, by decide⟩, rfl, by decide, by decide⟩
theorem witness_ErrorsChangeOnlyStatus :
    (∃ t, accept 0x300000004#35 (freshState []) = .next t ∧ t.status ≠ 0#2) ∧
    (moveState .wait 1#32 2#32 false).rst = false ∧ (moveState .wait 1#32 2#32 false).busy = true ∧
    ∃ t, step (moveState .wait 1#32 2#32 false) = .next t :=
  ⟨⟨_, rfl, by show (2#2) ≠ 0#2; decide⟩, rfl, rfl, _, rfl⟩
theorem witness_ErrorChecksAreOrdered : ({ vectorState [.present 0x500000000#35] with rstIn := [true] } : State).rst = true ∧
    decode 0x300000000#35 = .instr (.stepN 0) := ⟨rfl, by decide⟩
theorem witness_MovesAreAcceptedInOneTick : (vectorState []).configured = true ∧
    ((Instr.stepN (-2147483648)).wf = true ∧ (-2147483648 : Int) ≠ 0) ∧
    ((Instr.stepAngle 23).wf = true ∧ 22 < (23 : Int).natAbs) ∧ (-22 : Int).natAbs ≤ 22 :=
  ⟨rfl, by decide, by decide, by decide⟩
theorem witness_OneStepRunsToCompletion : (readyState []).configured = true ∧
    tableLen (readyState []).mode = some 6 ∧ (readyState []).phase.toNat < 6 ∧
    NoReset ((readyState []).dwell.toNat + 2) (readyState []) :=
  ⟨rfl, (readyState_table []).1, (readyState_table []).2, noReset_of_nil rfl _⟩
theorem witness_StepNRunsToCompletion : (Instr.stepN (-4)).wf = true ∧ (readyState []).configured = true ∧
    (readyState []).busy = false ∧ tableLen (readyState []).mode = some 6 ∧ (readyState []).phase.toNat < 6 ∧
    NoReset ((-4 : Int).natAbs * ((readyState []).dwell.toNat + 2)) (readyState []) :=
  ⟨by decide, rfl, rfl, (readyState_table []).1, (readyState_table []).2, noReset_of_nil rfl _⟩
theorem witness_StepAngleRunsToCompletion : (Instr.stepAngle (-23)).wf = true ∧ (readyState []).configured = true ∧
    (readyState []).busy = false ∧ tableLen (readyState []).mode = some 6 ∧ (readyState []).phase.toNat < 6 ∧
    1 = ((-23 : Int).natAbs + 22) / 45 ∧ NoReset (1 * ((readyState []).dwell.toNat + 2)) (readyState []) :=
  ⟨by decide, rfl, rfl, (readyState_table []).1, (readyState_table []).2, by decide, noReset_of_nil rfl _⟩
/-- A move, a command that completes at once, and a tick during the move. -/
theorem witness_TickLevelAgreesWithCommandLevel : (freshState []).busy = false ∧ BoundaryInv (readyState []) ∧
    NoReset (moveLength (.stepN 2) (readyState []) * ((readyState []).dwell.toNat + 2)) (readyState []) ∧
    NoReset (moveLength .shutdown (readyState []) * ((readyState []).dwell.toNat + 2)) (readyState []) ∧
    0 < moveLength (.stepN 2) (readyState []) * ((readyState []).dwell.toNat + 2) :=
  ⟨rfl, readyState_boundaryInv [], noReset_of_nil rfl _, noReset_of_nil rfl _,
    Nat.mul_pos (by show 0 < (2#32).toNat; decide) (Nat.succ_pos _)⟩
theorem witness_MoveClosedForm : tableLen (readyState []).mode = some 6 ∧ (readyState []).phase.toNat < 6 :=
  readyState_table []
theorem witness_StepNRoundTrip : (-2 ^ 31 : Int) < 2147483647 ∧ (2147483647 : Int) < 2 ^ 31 ∧ (0 : Int) < 2147483647 ∧
    (readyState []).configured = true ∧ tableLen (readyState []).mode = some 6 ∧ (readyState []).phase.toNat < 6 :=
  ⟨by decide, by decide, by decide, rfl, readyState_table []⟩
theorem witness_ReversalWritesOneRowFurther : 1 ≤ 3 ∧ 3 < 2 ^ 31 ∧ (readyState []).configured = true ∧
    tableLen (readyState []).mode = some 6 ∧ (readyState []).phase.toNat < 6 :=
  ⟨by decide, by decide, rfl, readyState_table []⟩
/-- Index 0, index `LEN - 1`, both lengths. -/
theorem witness_AdvanceMovesIndexModuloLength :
    (tableLen (readyState []).mode = some 6 ∧ (readyState []).phase.toNat = 6 - 1) ∧
    (tableLen (vectorState []).mode = some 4 ∧ (vectorState []).phase.toNat = 4 - 1) ∧
    (tableLen { readyState [] with phase := 0#3 }.mode = some 6 ∧ ({ readyState [] with phase := 0#3 } : State).phase.toNat = 0) :=
  ⟨⟨rfl, rfl⟩, ⟨rfl, rfl⟩, rfl, rfl⟩
theorem witness_AdvanceIsInvertible : tableLen (vectorState []).mode = some 4 ∧ (vectorState []).phase.toNat < 4 :=
  ⟨rfl, by show (3#3).toNat < 4; decide⟩
theorem witness_AdvanceClosedForm : tableLen (readyState []).mode = some 6 ∧ (readyState []).phase.toNat < 6 :=
  readyState_table []
theorem witness_StepWritesThenAdvancesThenHolds : tableLen (vectorState []).mode = some 4 ∧ (vectorState []).phase.toNat < 4 :=
  ⟨rfl, by show (3#3).toNat < 4; decide⟩
/-- Each kind of idle tick: nothing presented, a reserved word, a command without a move, a move, a move of no step with and
without its closing de-energize, a movement command on an unconfigured block. -/
theorem witness_IdleTick :
    ((vectorState []).rst = false ∧ (vectorState []).busy = false ∧ (vectorState []).presented = none) ∧
    ((vectorState [.present 0x200000002#35]).presented = some 0x200000002#35 ∧
      decode 0x200000002#35 = .reject (.spareDirectionBits 1#31)) ∧
    ((vectorState [.present 0x500000000#35]).presented = some 0x500000000#35 ∧
      decode 0x500000000#35 = .instr .shutdown ∧ moveOf .shutdown = none) ∧
    (decode 0x300000002#35 = .instr (.stepN 2) ∧ moveOf (.stepN 2) = some (2#32, .forward, false) ∧
      (2#32) ≠ 0#32 ∧ (vectorState [.present 0x300000002#35]).configured = true) ∧
    moveOf (.stepAngle (-22)) = some (0#32, .reverse, true) ∧ moveOf (.stepN 0) = some (0#32, .forward, false) ∧
    (freshState [.present 0x300000002#35]).configured = false :=
  ⟨⟨rfl, rfl, rfl⟩, ⟨rfl, by decide⟩, ⟨rfl, by decide, rfl⟩, ⟨by decide, rfl, by decide, rfl⟩, rfl, rfl, rfl⟩
theorem witness_StepRunsDecodedInstruction :
    ((vectorState [.present 0x300000002#35]).accepted = some 0x300000002#35 ∧ decode 0x300000002#35 = .instr (.stepN 2)) ∧
    ((vectorState [.present 0x200000002#35]).accepted = some 0x200000002#35 ∧
      decode 0x200000002#35 = .reject (.spareDirectionBits 1#31)) := ⟨⟨rfl, by decide⟩, rfl, by decide⟩
theorem witness_PresentedTableWordRunsNext : decodeTableWord 40 0x4FFFFFF80 = some (.stepAngle (-128)) := by decide
theorem witness_EmitTick : (flightState .emit 1#32 0#32 true).rst = false ∧ (flightState .emit 1#32 0#32 true).busy = true ∧
    (flightState .emit 1#32 0#32 true).sub = .emit ∧ tableLen (flightState .emit 1#32 0#32 true).mode = some 6 ∧
    (flightState .emit 1#32 0#32 true).phase.toNat < 6 := ⟨rfl, rfl, rfl, readyState_table []⟩
/-- The four clauses and a hold: `TIMER` counting, more steps to go, the end without and with a closing de-energize. -/
theorem witness_WaitTick :
    ((moveState .wait 1#32 2#32 false).rst = false ∧ (moveState .wait 1#32 2#32 false).busy = true ∧
      (moveState .wait 1#32 2#32 false).sub = .wait ∧ (moveState .wait 1#32 2#32 false).timer ≠ 0#32 ∧
      NoReset ((moveState .wait 1#32 2#32 false).timer.toNat + 1) (moveState .wait 1#32 2#32 false)) ∧
    ((moveState .wait 1#32 0#32 false).timer = 0#32 ∧ (moveState .wait 1#32 0#32 false).remain ≠ 0#32) ∧
    ((moveState .wait 0#32 0#32 false).remain = 0#32 ∧ (moveState .wait 0#32 0#32 false).rest = false) ∧
    ((moveState .wait 0#32 0#32 true).remain = 0#32 ∧ (moveState .wait 0#32 0#32 true).rest = true) :=
  ⟨⟨rfl, rfl, rfl, by show (2#32) ≠ 0#32; decide, noReset_of_nil rfl _⟩, ⟨rfl, by show (1#32) ≠ 0#32; decide⟩, ⟨rfl, rfl⟩, rfl, rfl⟩
theorem witness_HoldKeepsLinesIndexAndPort : ∃ t, (moveState .emit 2#32 0#32 false).rst = false ∧
    (moveState .emit 2#32 0#32 false).busy = true ∧ (moveState .emit 2#32 0#32 false).sub = .emit ∧
    step (moveState .emit 2#32 0#32 false) = .next t ∧ NoReset (moveState .emit 2#32 0#32 false).dwell.toNat t :=
  ⟨_, rfl, rfl, rfl, test_emit_tick, noReset_of_nil rfl _⟩
theorem witness_StepPeriodIsDwellPlusTwo : (flightState .emit 2#32 0#32 true).busy = true ∧
    (flightState .emit 2#32 0#32 true).sub = .emit ∧ (flightState .emit 2#32 0#32 true).remain ≠ 1#32 ∧
    tableLen (flightState .emit 2#32 0#32 true).mode = some 6 ∧ (flightState .emit 2#32 0#32 true).phase.toNat < 6 ∧
    NoReset ((flightState .emit 2#32 0#32 true).dwell.toNat + 2) (flightState .emit 2#32 0#32 true) :=
  ⟨rfl, rfl, by show (2#32) ≠ 1#32; decide, (readyState_table []).1, (readyState_table []).2, noReset_of_nil rfl _⟩
theorem witness_BusyBlockIgnoresPort : ∃ t s, s = { moveState .wait 1#32 2#32 false with cmdIn := [.present 0x500000000#35] } ∧
    s.busy = true ∧ s.rst = false ∧ step s = .next t ∧ s.presented = some 0x500000000#35 :=
  ⟨_, _, rfl, rfl, rfl, test_busy_port_keeps_the_word, rfl⟩
theorem witness_MoveInFlightIsNotRedirected : ∃ t, (moveState .wait 0#32 0#32 true).rst = false ∧
    (moveState .wait 0#32 0#32 true).busy = true ∧ step (moveState .wait 0#32 0#32 true) = .next t ∧ t.busy = false :=
  ⟨_, rfl, rfl, test_wait_tick_ends_the_move, rfl⟩
theorem witness_TickFaultsOnlyAtUnreachableAddress :
    (∃ s : State, s.rst = false ∧ s.busy = true ∧ s.sub = .emit ∧ romRead s.mode s.phase = none) ∧
    ¬ ((vectorState []).rst = false ∧ (vectorState []).busy = true ∧ (vectorState []).sub = .emit ∧
      romRead (vectorState []).mode (vectorState []).phase = none) :=
  ⟨⟨{ moveState .emit 1#32 0#32 false with phase := 4#3 }, rfl, rfl, rfl, rfl⟩, fun h => nomatch h.2.1⟩
theorem witness_ResetTick : ∃ s t u v : State,
    (s.rst = true ∧ s.presented = some 0x500000000#35 ∧ step s = .next t ∧ s.configured = true ∧ t.configured = false ∧
      s.busy = true ∧ t.busy = false) ∧
    (u.rst = false ∧ step u = .next v ∧ u.busy = true ∧ v.busy = false) :=
  ⟨_, _, _, _, ⟨rfl, rfl, test_reset_in_flight, rfl, rfl, rfl, rfl⟩, rfl, test_wait_tick_ends_the_move, rfl, rfl⟩
theorem witness_StepKeepsInvariant : ∃ s t, Inv s ∧ s.busy = true ∧ step s = .next t :=
  ⟨flightState .emit 1#32 0#32 true, _, flightState_inv.1, rfl, rfl⟩
theorem witness_ReachableBoundariesMeetInvariant : ∃ s, Reachable s ∧ s.busy = false ∧ s.configured = true := by
  obtain ⟨s, h1, h2, h3⟩ := constructed_reachable
  exact ⟨s, h1, h3, h2⟩
theorem witness_NoTickStopsUnderInvariant : Inv (flightState .emit 1#32 0#32 true) := flightState_inv.1
/-- Both ways `CONFIGURED` changes, and the two other clauses. -/
theorem witness_ConfiguredWriters :
    (∃ s t, step s = .next t ∧ t.configured ≠ s.configured ∧ s.rst = true) ∧
    (∃ s t, step s = .next t ∧ t.configured ≠ s.configured ∧ s.rst = false) ∧
    (2 ≤ 2 ∧ ∃ t, exec (.construct 2) (freshState []) = .next t) ∧ (freshState []).configured = false :=
  ⟨⟨{ vectorState [] with rstIn := [true] }, _, rfl, by show false ≠ true; decide, rfl⟩,
    ⟨freshState [.present 0x000000001#35], _, rfl, by show true ≠ false; decide, rfl⟩, ⟨by decide, _, rfl⟩, rfl⟩
theorem witness_ModeWrittenOnlyByConstruct : ∃ s t, step s = .next t ∧ t.mode ≠ s.mode ∧ s.rst = false :=
  ⟨vectorState [.present 0x000000002#35], _, test_construct_anew, by show (2#2) ≠ 1#2; decide, rfl⟩
/-- The index changes by a step and by a CONSTRUCT; a configured reachable block exists. -/
theorem witness_PhaseMovedOnlyByStep :
    (∃ s t, step s = .next t ∧ t.phase ≠ s.phase ∧ s.rst = false ∧ s.busy = true) ∧
    (∃ s t, step s = .next t ∧ t.phase ≠ s.phase ∧ s.rst = false ∧ s.busy = false) ∧
    ∃ s, Reachable s ∧ s.configured = true := by
  refine ⟨⟨_, _, test_emit_tick, by show (2#3) ≠ 3#3; decide, rfl, rfl⟩,
    ⟨_, _, test_construct_anew, by show (0#3) ≠ 3#3; decide, rfl, rfl⟩, ?_⟩
  obtain ⟨s, h1, h2, _⟩ := constructed_reachable
  exact ⟨s, h1, h2⟩
/-- A dwell that is not `BASE_DWELL` is changed by a CONSTRUCT and by SET_SPEED 100. -/
theorem witness_DwellWriters : (∃ s, Reachable s ∧ s.configured = true) ∧ ∃ d : Word, ∃ s t u v, s.dwell = d ∧ d ≠ baseDwell ∧ t.dwell ≠ s.dwell ∧ v.dwell ≠ u.dwell ∧
    s.rst = false ∧ u.rst = false ∧ step s = .next t ∧ step u = .next v := by
  have h100 : dwellOfPercent 100 = baseDwell := by
    apply BitVec.eq_of_toNat_eq
    have := Config.baseDwell.isLt
    simp [dwellOfPercent, dwellTicks, baseDwell]
  obtain ⟨s0, hs1, hs2, _⟩ := constructed_reachable
  refine ⟨⟨s0, hs1, hs2⟩, baseDwell + 1#32, { vectorState [.present 0x000000002#35] with dwell := baseDwell + 1#32 }, _,
    { vectorState [.present 0x100000064#35] with dwell := baseDwell + 1#32 },
    { vectorState [] with dwell := dwellOfPercent 100 }, rfl, by simp, ?_, ?_, rfl, rfl, rfl, rfl⟩
  · show baseDwell ≠ baseDwell + 1#32
    simp
  · show dwellOfPercent 100 ≠ baseDwell + 1#32
    rw [h100]; simp
theorem witness_StatusIsWrittenAtAcceptanceOnly :
    ({ vectorState [] with rstIn := [true] } : State).rst = true ∧
    ((moveState .emit 2#32 0#32 false).rst = false ∧ (moveState .emit 2#32 0#32 false).accepted = none) ∧
    (vectorState [.present 0x300000000#35]).accepted = some 0x300000000#35 := ⟨rfl, ⟨rfl, rfl⟩, rfl⟩
theorem witness_LinesShowLatestWrite : ∃ s t, s.lines = lastWrite s.trace ∧ step s = .next t ∧ s.busy = true :=
  ⟨moveState .emit 2#32 0#32 false, _, rfl, test_emit_tick, rfl⟩
theorem witness_TraceIsAppendedAndNeverRead : (moveState .emit 2#32 0#32 false).rst = false := rfl
/-- Two different states alike but for dead registers: the in-flight registers outside a move. -/
theorem witness_UnspecifiedRegistersNeverShow : ∃ s t s' : State, s ≠ t ∧ Inv s ∧ SameLive s t ∧ step s = .next s' := by
  refine ⟨{ readyState [] with remain := 1#32 }, { readyState [] with remain := 0#32 }, _, ?_, ?_, ?_, rfl⟩
  · intro h
    exact absurd (congrArg State.remain h) (by show (1#32) ≠ 0#32; decide)
  · have hr := readyState_inv []
    exact ⟨hr.1, hr.2, hr.3, hr.4, hr.5, hr.6, hr.7, hr.8, fun h => (nomatch h), fun h => (nomatch h), fun h => (nomatch h)⟩
  · exact ⟨rfl, rfl, rfl, rfl, rfl, rfl, rfl, fun _ => rfl, fun _ => rfl, fun _ => rfl, fun h => (nomatch h), fun _ => rfl,
      fun _ => rfl, fun _ => rfl, fun h => (nomatch h)⟩
theorem witness_DeenergizedLinesAreGuaranteed :
    (∃ s t, s.rst = true ∧ step s = .next t) ∧ (2 ≤ 2 ∧ ∃ t, command (.construct 2) (vectorState []) = .next t) ∧
    (∃ t, command .shutdown (vectorState []) = .next t) ∧
    ((vectorState []).configured = true ∧ (0 : Int) ≤ 0 ∧ ∃ t, command (.setSpeed 0) (vectorState []) = .next t) ∧
    (∃ t, command (.stepAngle 0) (vectorState []) = .next t) ∧
    (Reachable (freshState []) ∧ (freshState []).configured = false) :=
  ⟨⟨_, _, rfl, test_reset_in_flight⟩, ⟨by decide, _, rfl⟩, ⟨_, rfl⟩, ⟨rfl, by decide, _, rfl⟩, ⟨_, rfl⟩,
    freshState_reachable [], rfl⟩
theorem witness_OutputsMirrorRegisters : (vectorState []).rst = false ∧ (vectorState []).busy = false ∧
    (vectorState []).accepted = none := ⟨rfl, rfl, rfl⟩

end Sys2Proof.Machine
end

section
/-! SUPPORT. The invariant of every tick (spec/10_state.md R38), kept operation by operation, and what it says of every
reachable state; who sets and clears `CONFIGURED` (R23). -/

namespace Sys2Proof.Machine

/-! ### Where the invariant holds, and what keeps it -/

theorem ResetState.inv {s : State} (h : ResetState s) : Inv s := by
  obtain ⟨hc, hb, hl, _, ht⟩ := h
  constructor <;> simp [hc, hb, hl, ht, lastWrite]

theorem resetState_resetTick (s : State) : ResetState (resetTick s) := ⟨rfl, rfl, rfl, rfl, rfl⟩

theorem Inv.boundaryInv {s : State} (h : Inv s) (hb : s.busy = false) : BoundaryInv s where
  inv1 := hb
  inv2 := h.mode_legal
  inv3 := h.phase_in_table
  inv4 := h.dwell_in_range
  inv5 := h.unconfigured_off
  inv6 := h.lines_row

theorem Inv.portTick {s : State} (h : Inv s) : Inv s.portTick := { h with }

/-- `STATUS` and the registers of a move in flight are free in a block that is not in a move. -/
theorem Inv.idle {s : State} (h : Inv s) {b : Bool} (hb : b = false) {st : BitVec 2} {n tm : Word} {d : Direction}
    {r : Bool} {u : SubState} :
    Inv { s with busy := b, status := st, timer := tm, remain := n, dir := d, rest := r, sub := u } := by
  subst hb
  exact { h with
    busy_configured := nofun, busy_ok := nofun, remain_bounded := nofun, emit_owes_step := nofun, hold_bounded := nofun }

/-- A de-energize suits every state (R53, R55). -/
theorem Inv.lineWrite_zero {s : State} (h : Inv s) : Inv (lineWrite 0#4 s) :=
  { h with
    unconfigured_off := fun _ => rfl, lines_row := .inl rfl, lines_traced := (lastWrite_append_W _ _).symm }

/-! ### The ticks of a move in flight -/

theorem Inv.finishMove {s : State} (h : Inv s) : Inv (finishMove s) := by
  unfold Machine.finishMove
  split
  · exact h.lineWrite_zero.idle rfl
  · exact h.idle rfl

theorem Inv.waitTick {s : State} (h : Inv s) (hs : s.sub = .wait) : Inv (waitTick s) := by
  rcases waitTick_cases s with ⟨ht, hw⟩ | ⟨_, hn, hw⟩ | ⟨_, _, hw⟩ <;> rw [hw]
  · refine { h with hold_bounded := fun hb _ => ?_ }
    have hle := h.hold_bounded hb hs
    show (s.timer - 1#32).toNat ≤ s.dwell.toNat
    bv_omega
  · exact { h with emit_owes_step := fun _ _ => hn, hold_bounded := nofun }
  · exact h.finishMove

theorem Inv.emitTick {s t : State} (h : Inv s) (hb : s.busy = true) (hs : s.sub = .emit) (ht : emitTick s = .next t) :
    Inv t := by
  obtain ⟨len, v, hl, hv, rfl⟩ := emitTick_cases ht
  have hc := h.busy_configured hb
  have hn := h.emit_owes_step hb hs
  have hr := h.remain_bounded hb
  obtain ⟨len', hl', hp⟩ := h.phase_in_table hc
  obtain rfl : len = len' := by simpa [hl] using hl'
  refine { h with
    phase_in_table := fun _ => ⟨len, hl, ?_⟩
    unconfigured_off := fun hc' => nomatch hc.symm.trans hc'
    lines_row := .inr ⟨hc, s.phase, hv⟩
    lines_traced := (lastWrite_append_W_H _ _ _).symm
    remain_bounded := fun _ => ?_
    emit_owes_step := nofun
    hold_bounded := fun _ _ => Nat.le_refl _ }
  · show (nextIndex len s.dir s.phase).toNat < len
    rw [nextIndex_toNat hl s.dir s.phase hp]
    exact moveIndex_lt (tableLen_pos hl) _ _ _
  · show (s.remain - 1#32).toNat ≤ 2 ^ 31
    bv_omega

/-! ### The tick that accepts a command -/

theorem Inv.acceptMove {s : State} (h : Inv s) (hb : s.busy = false) (hc : s.configured = true) {n : Word}
    (hn : n.toNat ≤ 2 ^ 31) (d : Direction) (rest : Bool) : Inv (acceptMove n d rest s) := by
  rcases acceptMove_cases n d rest s with ⟨h0, ha⟩ | ⟨_, _, ha⟩ | ⟨_, _, ha⟩ <;> rw [ha]
  · exact { h with
      busy_configured := fun _ => hc, busy_ok := fun _ => rfl, remain_bounded := fun _ => hn
      emit_owes_step := fun _ _ => h0, hold_bounded := nofun }
  · exact h.lineWrite_zero.idle hb
  · exact h.idle hb

/-- The state a CONSTRUCT of mode 0 to 2 leaves, whatever the block held before (R110, R117). -/
theorem inv_of_constructed {s : State} (hb : s.busy = false) {mode : Nat} (hm : mode ≤ 2) :
    Inv { s with
      mode := BitVec.ofNat 2 mode, lines := 0#4, phase := 0#3, dwell := baseDwell, configured := true
      status := 0#2, trace := s.trace ++ [.W 0#4] } := by
  have hidle : s.busy ≠ true := by simp [hb]
  have hlegal : (BitVec.ofNat 2 mode).toNat ≤ 2 := by rw [BitVec.toNat_ofNat]; omega
  obtain ⟨len, hl⟩ := tableLen_of_le hlegal
  exact {
    mode_legal := fun _ => hlegal
    phase_in_table := fun _ => ⟨len, hl, tableLen_pos hl⟩
    dwell_in_range := fun _ => dwellInRange_baseDwell
    unconfigured_off := nofun
    lines_row := .inl rfl
    lines_traced := (lastWrite_append_W _ _).symm
    busy_configured := fun _ => rfl
    busy_ok := fun _ => rfl
    remain_bounded := fun hb' => absurd hb' hidle
    emit_owes_step := fun hb' => absurd hb' hidle
    hold_bounded := fun hb' => absurd hb' hidle }

theorem Inv.setDwell {s : State} (h : Inv s) (hb : s.busy = false) {d : Word} (hd : dwellInRange d) :
    Inv { s with dwell := d } :=
  { h with
    dwell_in_range := fun _ => hd
    hold_bounded := fun hb' => absurd hb' (by simp [hb]) }

theorem Inv.accept {s t : State} (h : Inv s) (hb : s.busy = false) {w : CommandWord} (ht : accept w s = .next t) :
    Inv t := by
  rcases accept_cases w s with ⟨_, _, ha⟩ | ⟨i, hd, ha⟩
  · obtain rfl : raise .illegalCommand s = t := by simpa [ha] using ht
    exact h.idle hb
  · rw [ha] at ht
    rcases exec_cases i s with ⟨_, he⟩ | ⟨_, _, hm, he⟩ | ⟨p, _, hp, _, he⟩ | he | ⟨n, d, r, hmv, hc, he⟩ <;>
      rw [he] at ht <;> obtain rfl := Host.Outcome.next.inj ht
    · exact h.idle hb
    · exact inv_of_constructed hb hm
    · exact (h.setDwell hb (dwellInRange_dwellOfPercent p hp)).idle hb
    · exact h.lineWrite_zero.idle hb
    · exact h.acceptMove hb hc (moveOf_toNat_le hd hmv) d r

/-! ### Every tick, every reachable state -/

theorem Inv.step {s t : State} (h : Inv s) (ht : step s = .next t) : Inv t := by
  rcases step_cases s with ⟨_, hs⟩ | ⟨_, hb, hsub, hs⟩ | ⟨_, _, hsub, hs⟩ | ⟨_, _, _, hs⟩ | ⟨w, _, hb, _, hs⟩ <;>
    rw [hs] at ht
  · obtain rfl := Host.Outcome.next.inj ht
    exact (resetState_resetTick _).inv
  · exact h.portTick.emitTick hb hsub ht
  · obtain rfl := Host.Outcome.next.inj ht
    exact h.portTick.waitTick hsub
  · obtain rfl := Host.Outcome.next.inj ht
    exact h.portTick
  · exact h.portTick.accept hb ht

theorem Reachable.inv {s : State} (h : Reachable s) : Inv s := by
  induction h with
  | start rstIn cmdIn => exact ResetState.inv ⟨rfl, rfl, rfl, rfl, rfl⟩
  | tick _ hstep ih => exact ih.step hstep

/-- Settles O46: the invariant of every tick holds of every reachable state, and at a command boundary it says INV1 to
INV6. -/
theorem reachableBoundariesMeetInvariant : Obligations.ReachableBoundariesMeetInvariant := by
  unfold Obligations.ReachableBoundariesMeetInvariant
  exact fun s hs => ⟨hs.inv.boundaryInv, hs.inv.phase_in_table⟩

/-! ### `CONFIGURED` -/

theorem step_configured_cases {s t : State} (h : step s = .next t) :
    (s.rst = true ∧ t.configured = false) ∨
    (∃ w mode, s.accepted = some w ∧ decode w = .instr (.construct mode) ∧ mode ≤ 2 ∧ t.configured = true) ∨
    t.configured = s.configured := by
  rcases step_writes_cases s t h with hr | ⟨_, _, _, _, hc, _⟩ | ⟨_, _, hc, _⟩ | ⟨w, mode, ha, hd, hm, _, _, hc, _⟩ |
    ⟨_, _, _, _, _, _, _, hc, _⟩
  · obtain rfl := Host.Outcome.next.inj ((step_of_rst hr).symm.trans h)
    exact .inl ⟨hr, rfl⟩
  · exact .inr (.inr hc)
  · exact .inr (.inr hc)
  · exact .inr (.inl ⟨w, mode, ha, hd, hm, hc⟩)
  · exact .inr (.inr hc)

/-- CONSTRUCT of a recognized mode (R90, R110). -/
theorem exec_construct_of_le {mode : Nat} (hm : mode ≤ 2) (s : State) :
    exec (.construct mode) s = .next (setOk { lineWrite 0#4 { s with mode := BitVec.ofNat 2 mode } with
      phase := 0#3, dwell := baseDwell, configured := true }) := by
  have hsel : selectTable mode = some (BitVec.ofNat 2 mode) := if_neg (by omega)
  simp only [exec, execConstruct, hsel]

/-- SET_SPEED and the three moves on a block that is not configured (R153). -/
theorem exec_of_unconfigured {s : State} (hc : s.configured = false) :
    (∀ p, exec (.setSpeed p) s = .next (raise .notConfigured s)) ∧
    (∀ d, exec (.oneStep d) s = .next (raise .notConfigured s)) ∧
    (∀ c, exec (.stepN c) s = .next (raise .notConfigured s)) ∧
    (∀ a, exec (.stepAngle a) s = .next (raise .notConfigured s)) :=
  ⟨fun _ => if_pos hc, fun _ => if_pos hc, fun _ => if_pos hc, fun _ => if_pos hc⟩

/-- Settles O48: of all that a tick can do, only a reset and a CONSTRUCT of a recognized mode write `CONFIGURED`. -/
theorem configuredWriters : Obligations.ConfiguredWriters := by
  unfold Obligations.ConfiguredWriters
  refine ⟨rfl, fun s t hstep hne => ?_, fun mode s t hm ht => ?_, fun s hc => exec_of_unconfigured hc⟩
  · rcases step_configured_cases hstep with hreset | hconstruct | hsame
    · exact .inl hreset
    · exact .inr hconstruct
    · exact absurd hsame hne
  · obtain rfl := Host.Outcome.next.inj ((exec_construct_of_le hm s).symm.trans ht)
    rfl

end Sys2Proof.Machine
end

section
/-! SUPPORT. The map of the pattern space: the physical address of a word and the 14 addresses that hold one
(spec/20_memory.md R51, R52, R58). -/

namespace Sys2Proof.Machine

/-- `{m[1:0], i[2:0]}` as a number (R52). -/
theorem romAddr_toNat (m : BitVec 2) (i : BitVec 3) : (romAddr m i).toNat = 8 * m.toNat + i.toNat := by
  rw [romAddr, BitVec.toNat_append, ← Nat.shiftLeft_add_eq_or_of_lt i.isLt, Nat.shiftLeft_eq, Nat.mul_comm]

/-- Every physical address is the address of one pair `(m, i)`, in a table or not. -/
theorem exists_romAddr_eq (a : RomAddr) : ∃ m i, romAddr m i = a := by
  refine ⟨a.extractLsb' 3 2, a.extractLsb' 0 3, BitVec.eq_of_toNat_eq ?_⟩
  have ha := a.isLt
  simp only [romAddr_toNat, BitVec.extractLsb'_toNat, Nat.shiftRight_eq_div_pow]
  omega

/-- The three lengths (R51, R91). -/
theorem tableLen_eq_some_iff (m : BitVec 2) (len : Nat) :
    tableLen m = some len ↔ (m.toNat ≤ 1 ∧ len = 4) ∨ (m.toNat = 2 ∧ len = 6) := by
  unfold tableLen
  split
  case h_4 hzero hone htwo =>
    rw [imp_false] at hzero hone htwo
    simp only [reduceCtorEq, false_iff]
    omega
  all_goals
    rw [Option.some.injEq]
    omega

theorem romRead_isSome_iff (m : BitVec 2) (i : BitVec 3) :
    (romRead m i).isSome = true ↔ (m.toNat ≤ 1 ∧ i.toNat < 4) ∨ (m.toNat = 2 ∧ i.toNat < 6) := by
  have hin : (romRead m i).isSome = true ↔ inTable m i = true := by
    rw [romRead_eq]
    split <;> simp_all
  simp only [hin, inTable_iff, tableLen_eq_some_iff, or_and_right, and_assoc, exists_or, exists_and_left,
    exists_eq_left]

theorem memRead_cases (a : RomAddr) : memRead a = some (Config.rom a) ∨ memRead a = none :=
  ite_eq_or_eq _ _ _

/-- The address map of R58: an address is `8 * m + i` of its own pair, so the rows of the tables fill these three ranges. -/
theorem memRead_isSome_iff (a : RomAddr) : (memRead a).isSome = true ↔
    (a.toNat ≤ 3 ∨ (8 ≤ a.toNat ∧ a.toNat ≤ 11) ∨ (16 ≤ a.toNat ∧ a.toNat ≤ 21)) := by
  obtain ⟨m, i, rfl⟩ := exists_romAddr_eq a
  have hi := i.isLt
  rw [romAddr_toNat, ← romRead, romRead_isSome_iff]
  omega

/-- Settles O31: the address formula, and the address map carried over from the pairs `(m, i)` of the tables. -/
theorem patternSpaceMap : Obligations.PatternSpaceMap := by
  unfold Obligations.PatternSpaceMap
  exact ⟨fun m i => ⟨romAddr_toNat m i, rfl⟩, memRead_cases, memRead_isSome_iff⟩

end Sys2Proof.Machine
end

section
/-! SUPPORT. The word of each row of the decoding procedure (spec/30_encoding.md R84), the count of STEP_N (R77), the
commands with one effect in every state (R79, R80), and the port of a block in a move (R72). -/

namespace Sys2Proof

/-! ### Decoding -/

theorem decode_oneStep {arg : Word} (h : spareBits arg = 0) :
    decode (packWord 2 arg) = .instr (.oneStep (directionOfBit (arg.getLsbD 0))) :=
  (decode_packWord 2 arg).trans (if_pos h)

/-- `op = 2` with a spare bit set is no command (R81). -/
theorem decode_spareDirectionBits {arg : Word} (h : spareBits arg ≠ 0) :
    decode (packWord 2 arg) = .reject (.spareDirectionBits (spareBits arg)) :=
  (decode_packWord 2 arg).trans (if_neg h)

namespace Machine

/-- Settles O3: `decode_packWord` row by row, the spare bits of `op = 2` decided, and what a reserved word does. -/
theorem decodingFollowsProcedure : Obligations.DecodingFollowsProcedure := by
  unfold Obligations.DecodingFollowsProcedure
  intro op arg
  refine ⟨?_, ?_, ?_, ?_, ?_, ?_, ?_, ?_, ?_, fun hres s => accept_reserved op arg s (by tauto)⟩
  case refine_3 => rintro rfl hspare; exact decode_oneStep hspare
  case refine_9 => rintro rfl hspare; exact ⟨_, decode_spareDirectionBits hspare⟩
  all_goals rintro rfl; exact decode_packWord _ arg

/-! ### The count of STEP_N -/

/-- `sint(arg)` is an operand that a word can carry (R75). -/
theorem fitsSigned_toInt (arg : Word) : fitsSigned arg.toInt = true := by
  have hlow := arg.le_toInt
  have hhigh := arg.toInt_lt
  simp only [fitsSigned, Bool.and_eq_true, decide_eq_true_eq]
  omega

/-- No magnitude is cut by its 32 bits, that of `-2^31` included (R77). -/
theorem magnitude_toInt_toNat (arg : Word) : (magnitude arg.toInt).toNat = arg.toInt.natAbs :=
  magnitude_toNat_of_wf arg.toInt (fitsSigned_toInt arg)

theorem natAbs_toInt_le (arg : Word) : arg.toInt.natAbs ≤ 2 ^ 31 := by
  have hlow := arg.le_toInt
  have hhigh := arg.toInt_lt
  omega

/-- The magnitude in bits (R77): two's complement, so `sint(arg)` is `uint(arg)` or `uint(arg) - 2^32`. -/
theorem magnitude_toInt_eq_abs (arg : Word) : magnitude arg.toInt = arg.abs := by
  apply BitVec.eq_of_toNat_eq
  have hlt := arg.isLt
  rw [magnitude_toInt_toNat, BitVec.toNat_abs, BitVec.toInt_eq_msb_cond]
  split <;> omega

theorem signDirection_toInt (arg : Word) : signDirection arg.toInt = if arg.msb then .reverse else .forward := by
  simp only [signDirection, BitVec.msb_eq_toInt, decide_eq_true_eq]

/-- Settles O5: the magnitude is the absolute value of the two's complement word, and bit 31 is the word's sign. -/
theorem countMagnitudeAndDirection : Obligations.CountMagnitudeAndDirection := by
  unfold Obligations.CountMagnitudeAndDirection
  intro arg
  have hbit : arg.getLsbD 31 = arg.msb := arg.msb_eq_getLsbD_last.symm
  rw [hbit]
  refine ⟨decode_packWord 3 arg, magnitude_toInt_toNat arg, ?_, ?_, signDirection_toInt arg, ?_⟩
  · rw [magnitude_toInt_toNat]
    exact natAbs_toInt_le arg
  · rw [magnitude_toInt_eq_abs, BitVec.abs_eq, BitVec.neg_eq_not_add]
    rfl
  · rintro rfl
    decide

/-! ### SHUTDOWN and the reserved words -/

/-- SHUTDOWN reads no register but the trace it appends to (R140). -/
theorem exec_shutdown (s : State) :
    exec .shutdown s = .next { s with lines := 0#4, status := 0#2, trace := s.trace ++ [.W 0#4] } := rfl

/-- Settles O13: the write of zero has no condition, `op = 5` has one meaning, and a busy block accepts nothing. -/
theorem shutdownDeenergizes : Obligations.ShutdownDeenergizes := by
  unfold Obligations.ShutdownDeenergizes
  exact ⟨exec_shutdown, decode_packWord 5, fun _ => accepted_of_busy⟩

theorem exec_reserved6 (s : State) : exec .reserved6 s = .next { s with status := 3#2 } := rfl

theorem exec_reserved7 (s : State) : exec .reserved7 s = .next { s with status := 3#2 } := rfl

/-- Settles O16: the tick that accepts a word is its acceptance, and a reserved word raises IllegalCommand. -/
theorem reservedWordsRaiseIllegalCommand : Obligations.ReservedWordsRaiseIllegalCommand := by
  unfold Obligations.ReservedWordsRaiseIllegalCommand
  refine ⟨fun s => ⟨exec_reserved6 s, exec_reserved7 s⟩, fun s w hacc hres => ?_, fun s w hacc => ?_⟩
  · rw [step_of_accepted hacc, ← packWord_fields w]
    exact accept_reserved (opField w) (argField w) s.portTick hres
  · obtain ⟨_, hbusy, _⟩ := accepted_some hacc
    exact hbusy

/-! ### The port of a block in a move -/

/-- A block in a move accepts nothing, so the host keeps what it presents (R70, R72). -/
theorem portTick_of_busy {s : State} (hb : s.busy = true) :
    s.portTick = { s with rstIn := s.rstIn.tail, cmdIn := hostMoves false s.cmdIn } := by
  simp only [State.portTick, accepted_of_busy hb, Option.isSome_none]

theorem hostMoves_of_presented {s : State} {w : CommandWord} (h : s.presented = some w) :
    hostMoves false s.cmdIn = s.cmdIn := by
  unfold State.presented at h
  split at h <;> simp_all [hostMoves]

/-- The machine's one fault (R59). -/
theorem emitTick_of_romRead_none {s : State} (h : romRead s.mode s.phase = none) :
    emitTick s = .fault .unreachablePatternAddress := by
  simp only [emitTick, stepMicro_of_romRead_none h]

/-- An EMIT tick does not look at the host's moves, whether it steps or faults. -/
theorem emitTick_with_cmdIn (s : State) (q : List HostMove) :
    emitTick { s with cmdIn := q } = mapNext (fun t => { t with cmdIn := q }) (emitTick s) := by
  cases hstep : stepMicro s.dir s with
  | none =>
    have hread := stepMicro_none hstep
    rw [emitTick_of_romRead_none hread, emitTick_of_romRead_none (s := { s with cmdIn := q }) hread]
    rfl
  | some t =>
    obtain ⟨len, v, hlen, hread, _⟩ := stepMicro_cases hstep
    rw [emitTick_eq hlen hread, emitTick_eq (s := { s with cmdIn := q }) hlen hread]
    rfl

/-- A tick of a move is the same tick under any schedule of the port, which moves on by itself (R72). -/
theorem step_with_cmdIn_of_busy {s : State} (hb : s.busy = true) (hr : s.rst = false) (q : List HostMove) :
    step { s with cmdIn := q } = mapNext (fun t => { t with cmdIn := hostMoves false q }) (step s) := by
  have hport : ({ s with cmdIn := q } : State).portTick = { s.portTick with cmdIn := hostMoves false q } := by
    rw [portTick_of_busy hb, portTick_of_busy (s := { s with cmdIn := q }) hb]
  have hcases : s.sub = .emit ∨ s.sub = .wait := by cases s.sub <;> simp
  rcases hcases with hsub | hsub
  · rw [step_of_emit hr hb hsub, step_of_emit (s := { s with cmdIn := q }) hr hb hsub, hport, emitTick_with_cmdIn]
  · rw [step_of_wait hr hb hsub, step_of_wait (s := { s with cmdIn := q }) hr hb hsub, hport, waitTick_with_cmdIn]
    rfl

/-- The schedule a tick of a move leaves: `step_with_cmdIn_of_busy` at the schedule that is there. -/
theorem step_cmdIn_of_busy {s t : State} (hb : s.busy = true) (hr : s.rst = false) (h : step s = .next t) :
    t.cmdIn = hostMoves false s.cmdIn := by
  have hsame := step_with_cmdIn_of_busy hb hr s.cmdIn
  rw [h, mapNext] at hsame
  exact congrArg State.cmdIn (Host.Outcome.next.inj hsame)

/-- Settles O40: a busy block is not ready, so it accepts nothing, and no tick of a move reads the port. -/
theorem busyBlockIgnoresPort : Obligations.BusyBlockIgnoresPort := by
  unfold Obligations.BusyBlockIgnoresPort
  intro s q hb hr
  have hready : s.cmdReady = false := by simp [State.cmdReady, hb]
  refine ⟨hready, accepted_of_busy hb, fun t hstep w hw => ?_, step_with_cmdIn_of_busy hb hr q⟩
  rw [step_cmdIn_of_busy hb hr hstep, hostMoves_of_presented hw]

end Machine
end Sys2Proof
end

section
/-! SUPPORT. The index counter: ADVANCE once, `k` times, and back (spec/40_phase_table.md R94, R95, R96). -/

namespace Sys2Proof.Machine

/-! ### One ADVANCE -/

/-- Where `LEN(MODE)` is defined, ADVANCE writes `PHASE` alone (R94). -/
theorem advance_eq {s : State} {len : Nat} (hl : tableLen s.mode = some len) (d : Direction) :
    advance d s = some { s with phase := nextIndex len d s.phase } := by
  simp only [advance, hl]

/-- One row back is `L - 1` rows on: `1 mod L` is 1, since no table has a single row (R94). -/
theorem moveIndex_reverse_one {m : BitVec 2} {len : Nat} (hl : tableLen m = some len) (p : Nat) :
    moveIndex len .reverse p 1 = (p + len - 1) % len := by
  obtain ⟨_, rfl | rfl⟩ := tableLen_cases hl <;> rfl

theorem nextIndex_lt {m : BitVec 2} {len : Nat} (hl : tableLen m = some len) (d : Direction) {p : BitVec 3}
    (hp : p.toNat < len) : (nextIndex len d p).toNat < len := by
  rw [nextIndex_toNat hl d p hp]
  exact moveIndex_lt (tableLen_pos hl) d p.toNat 1

/-- Settles O28: ADVANCE writes `nextIndex`, whose two arms are the rule's and whose value is one step of the modular
counter. -/
theorem advanceMovesIndexModuloLength : Obligations.AdvanceMovesIndexModuloLength := by
  unfold Obligations.AdvanceMovesIndexModuloLength
  intro s len hl hp
  refine ⟨⟨_, advance_eq hl .forward, rfl, ?_, rfl, nextIndex_lt hl .forward hp⟩,
    ⟨_, advance_eq hl .reverse, rfl, ?_, rfl, nextIndex_lt hl .reverse hp⟩⟩
  · exact nextIndex_toNat hl .forward s.phase hp
  · exact (nextIndex_toNat hl .reverse s.phase hp).trans (moveIndex_reverse_one hl s.phase.toNat)

/-! ### There and back -/

/-- `k` rows on and `k` back, for any table length: the two displacements add up to one whole table (R95). -/
theorem moveIndex_reverse_forward {len p : Nat} (hp : p < len) (k : Nat) :
    moveIndex len .reverse (moveIndex len .forward p k) k = p := by
  have hk : k % len ≤ len := (Nat.mod_lt k (Nat.zero_lt_of_lt hp)).le
  calc ((p + k) % len + len - k % len) % len
      = ((p + k) % len + (len - k % len)) % len := by rw [Nat.add_sub_assoc hk]
    _ = (p + k % len + (len - k % len)) % len := by rw [← Nat.add_mod_mod p k, Nat.mod_add_mod]
    _ = (p + len) % len := by rw [Nat.add_assoc, Nat.add_sub_cancel' hk]
    _ = p := by rw [Nat.add_mod_right, Nat.mod_eq_of_lt hp]

/-- `k` rows back and `k` on (R95). -/
theorem moveIndex_forward_reverse {len p : Nat} (hp : p < len) (k : Nat) :
    moveIndex len .forward (moveIndex len .reverse p k) k = p := by
  have hk : k % len ≤ p + len := (Nat.mod_lt k (Nat.zero_lt_of_lt hp)).le.trans (Nat.le_add_left len p)
  calc ((p + len - k % len) % len + k) % len
      = (p + len - k % len + k % len) % len := by rw [Nat.mod_add_mod, Nat.add_mod_mod]
    _ = (p + len) % len := by rw [Nat.sub_add_cancel hk]
    _ = p := by rw [Nat.add_mod_right, Nat.mod_eq_of_lt hp]

/-- Where the index comes back, the state does: ADVANCE writes nothing else. -/
theorem advanceTimes_return {k : Nat} {d e : Direction} {s : State} {len : Nat} (hl : tableLen s.mode = some len)
    (hp : s.phase.toNat < len) (hback : moveIndex len e (moveIndex len d s.phase.toNat k) k = s.phase.toNat) :
    ∃ t, advanceTimes k d s = some t ∧ advanceTimes k e t = some s := by
  obtain ⟨t, ht, htphase, hts⟩ := advanceTimes_eq k d s len hl hp
  have htl : tableLen t.mode = some len := by rw [hts]; exact hl
  have htp : t.phase.toNat < len := htphase ▸ moveIndex_lt (tableLen_pos hl) d s.phase.toNat k
  obtain ⟨u, hu, huphase, hut⟩ := advanceTimes_eq k e t len htl htp
  have hphase : u.phase = s.phase := BitVec.eq_of_toNat_eq (by rw [huphase, htphase, hback])
  have hus : u = s := by rw [hut, hphase, hts]
  exact ⟨t, ht, hus ▸ hu⟩

/-- Settles O29: the index comes back in either order, and with it the state. -/
theorem advanceIsInvertible : Obligations.AdvanceIsInvertible := by
  unfold Obligations.AdvanceIsInvertible
  intro k s len hl hp
  exact ⟨advanceTimes_return hl hp (moveIndex_reverse_forward hp k),
    advanceTimes_return hl hp (moveIndex_forward_reverse hp k)⟩

/-! ### The closed form -/

/-- Settles O30: `advanceTimes_eq` in each direction; `moveIndex` is R96's closed form. -/
theorem advanceClosedForm : Obligations.AdvanceClosedForm := by
  unfold Obligations.AdvanceClosedForm
  intro k s len hl hp
  obtain ⟨t, ht, hforward, _⟩ := advanceTimes_eq k .forward s len hl hp
  obtain ⟨u, hu, hreverse, _⟩ := advanceTimes_eq k .reverse s len hl hp
  exact ⟨⟨t, ht, hforward⟩, ⟨u, hu, hreverse⟩⟩

end Sys2Proof.Machine
end

section
/-! SUPPORT. The hold that an EMIT tick starts: what it keeps, and the closed port (spec/41_dwell_timer.md R104). -/

namespace Sys2Proof.Machine

/-- An EMIT tick hands over to the wait, with the whole dwell to go (R120, R191). -/
theorem step_emit_starts_hold {s t : State} (hr : s.rst = false) (hb : s.busy = true) (hs : s.sub = .emit)
    (h : step s = .next t) : t.busy = true ∧ t.sub = .wait ∧ t.timer = s.dwell := by
  obtain ⟨_, _, _, _, rfl⟩ := emitTick_cases ((step_of_emit hr hb hs).symm.trans h)
  exact ⟨hb, rfl, rfl⟩

/-- A block in a move does not offer to take a command (R70, R72). -/
theorem cmdReady_of_busy {s : State} (hb : s.busy = true) : s.cmdReady = false := by
  rw [State.cmdReady, hb, Bool.not_true]

/-- Settles O38: the EMIT tick starts a hold of `DWELL`, whose ticks change `TIMER` and the host's inputs only, so the
block stays in its move and the port stays closed. -/
theorem holdKeepsLinesIndexAndPort : Obligations.HoldKeepsLinesIndexAndPort := by
  unfold Obligations.HoldKeepsLinesIndexAndPort
  intro s t hr hb hs hstep hn k hk
  obtain ⟨htb, htw, htimer⟩ := step_emit_starts_hold hr hb hs hstep
  obtain ⟨q, hrun⟩ := runTicks_wait k t htb htw (htimer ▸ hk) (hn.mono hk)
  exact ⟨_, hrun, rfl, rfl, rfl, cmdReady_of_busy htb, accepted_of_busy htb⟩

end Sys2Proof.Machine
end

section
/-! SUPPORT. The configuration commands CONSTRUCT and SET_SPEED: the arithmetic of the speed mapping, one equation per case
of each command, and which commands give which STATUS (spec/42_config_commands.md R110 to R117, spec/60_exceptions.md
R151 to R154). -/

namespace Sys2Proof.Machine

/-! ### The speed mapping -/

/-- The product of R113 stays below `2^32`, by the bound on `BASE_DWELL` (R7, R116). -/
theorem hundred_mul_baseDwell_lt : 100 * Config.baseDwell.val < 2 ^ 32 := by
  have hbase := Config.baseDwell.isLt
  omega

theorem baseDwell_toNat : baseDwell.toNat = Config.baseDwell.val :=
  (BitVec.toNat_ofNat _ _).trans (Nat.mod_eq_of_lt (by have hmax := hundred_mul_baseDwell_lt; omega))

/-- A larger percent divides by no less, so it never gives a longer dwell (R116). -/
theorem dwellOfPercent_antitone {p q : Int} (hp : 1 ≤ p) (hpq : p ≤ q) :
    (dwellOfPercent q).toNat ≤ (dwellOfPercent p).toNat := by
  rw [dwellOfPercent_toNat, dwellOfPercent_toNat]
  exact Nat.div_le_div_left (by omega) (by omega)

/-- From 100 percent on the divisor is 100 (R116). -/
theorem dwellOfPercent_of_hundred_le {p : Int} (hp : 100 ≤ p) : (dwellOfPercent p).toNat = Config.baseDwell.val := by
  have hmin : min p.toNat 100 = 100 := by omega
  rw [dwellOfPercent_toNat, hmin, Nat.mul_div_cancel_left _ (by decide)]

/-- Settles O7: the dwell is a quotient by `min(p, 100)`, so its bounds and its monotonicity are those of the floor. -/
theorem speedMappingArithmetic : Obligations.SpeedMappingArithmetic := by
  unfold Obligations.SpeedMappingArithmetic
  refine ⟨fun arg => ?_, fun p hp => ⟨dwellOfPercent_toNat p, fun _ => dwellOfPercent_antitone hp,
    dwellOfPercent_of_hundred_le, ?_, ?_, hundred_mul_baseDwell_lt⟩⟩
  · rw [BitVec.slt_iff_toInt_lt, BitVec.toInt_zero, Int.lt_iff_add_one_le, Int.zero_add]
  · rw [dwellOfPercent_toNat]
    exact Nat.div_mul_le_self _ _
  · have hdivisor : 0 < min p.toNat 100 := by omega
    rw [dwellOfPercent_toNat]
    exact (Nat.lt_mul_div_succ _ hdivisor).trans_eq (Nat.mul_comm _ _)

/-! ### CONSTRUCT and SET_SPEED, case by case -/

/-- CONSTRUCT of any other mode (R90, R111). -/
theorem exec_construct_of_three_le {mode : Nat} (hm : 3 ≤ mode) (s : State) :
    exec (.construct mode) s = .next (raise .configurationError s) := by
  have hsel : selectTable mode = none := if_pos (by omega)
  simp only [exec, execConstruct, hsel]

/-- SET_SPEED on a configured block, `percent >= 1` (R113). -/
theorem exec_setSpeed_of_one_le {s : State} (hc : s.configured = true) {percent : Int} (hp : 1 ≤ percent) :
    exec (.setSpeed percent) s = .next (setOk { s with dwell := dwellOfPercent percent }) := by
  simp only [exec, execSetSpeed, hc, hp, Bool.true_eq_false, if_true, if_false]

/-- SET_SPEED on a configured block, `percent <= 0` (R114): what SHUTDOWN does there (R115). -/
theorem exec_setSpeed_of_nonpos {s : State} (hc : s.configured = true) {percent : Int} (hp : percent ≤ 0) :
    exec (.setSpeed percent) s = exec .shutdown s := by
  have hnot : ¬ 1 ≤ percent := by omega
  simp only [exec, execSetSpeed, execShutdown, hc, hnot, Bool.true_eq_false, if_false]

/-! ### Which command gives which STATUS -/

/-- A move on a block that is not configured (R153). -/
theorem exec_of_moveOf_unconfigured {i : Instr} {m : Word × Direction × Bool} (hm : moveOf i = some m) {s : State}
    (hc : s.configured = false) : exec i s = .next (raise .notConfigured s) := by
  obtain ⟨_, honeStep, hstepN, hstepAngle⟩ := exec_of_unconfigured hc
  cases i with
  | oneStep d => exact honeStep d
  | stepN count => exact hstepN count
  | stepAngle angle => exact hstepAngle angle
  | construct | setSpeed | shutdown | reserved6 | reserved7 => nomatch hm

/-- A move is accepted, or it raises NotConfigured (R153, R190). -/
theorem exec_status_of_moveOf {i : Instr} {m : Word × Direction × Bool} (hm : moveOf i = some m) {s t : State}
    (h : exec i s = .next t) : t.status = 0#2 ∨ (t = raise .notConfigured s ∧ s.configured = false) := by
  obtain ⟨n, d, rest⟩ := m
  cases hc : s.configured with
  | false => exact .inr ⟨Host.Outcome.next.inj (h.symm.trans (exec_of_moveOf_unconfigured hm hc)), rfl⟩
  | true =>
    obtain rfl := Host.Outcome.next.inj ((exec_of_moveOf i n d rest s hm hc).1.symm.trans h)
    exact .inl (acceptMove_status n d rest s)

/-- SET_SPEED completes, or it raises NotConfigured (R112, R153). -/
theorem exec_setSpeed_status {percent : Int} {s t : State} (h : exec (.setSpeed percent) s = .next t) :
    t.status = 0#2 ∨ (t = raise .notConfigured s ∧ s.configured = false) := by
  cases hc : s.configured with
  | false => exact .inr ⟨Host.Outcome.next.inj (h.symm.trans ((exec_of_unconfigured hc).1 percent)), rfl⟩
  | true =>
    left
    rcases Int.lt_or_le 0 percent with hp | hp
    · obtain rfl := Host.Outcome.next.inj ((exec_setSpeed_of_one_le hc hp).symm.trans h)
      rfl
    · obtain rfl := Host.Outcome.next.inj ((exec_setSpeed_of_nonpos hc hp).symm.trans h)
      rfl

/-- CONSTRUCT completes, or it raises ConfigurationError for an unrecognized mode (R110, R111). -/
theorem exec_construct_status {mode : Nat} {s t : State} (h : exec (.construct mode) s = .next t) :
    t.status = 0#2 ∨ (t = raise .configurationError s ∧ 3 ≤ mode) := by
  rcases Nat.lt_or_ge 2 mode with hm | hm
  · exact .inr ⟨Host.Outcome.next.inj (h.symm.trans (exec_construct_of_three_le hm s)), hm⟩
  · obtain rfl := Host.Outcome.next.inj ((exec_construct_of_le hm s).symm.trans h)
    exact .inl rfl

/-- A command completes with OK, or it raises the one error its own check names (R151, R153, R154). -/
theorem exec_status_cases {i : Instr} {s t : State} (h : exec i s = .next t) :
    t.status = 0#2 ∨
    (t = raise .configurationError s ∧ ∃ mode, 3 ≤ mode ∧ i = .construct mode) ∨
    (t = raise .notConfigured s ∧ s.configured = false) ∨
    (t = raise .illegalCommand s ∧ (i = .reserved6 ∨ i = .reserved7)) := by
  cases i with
  | construct mode => exact (exec_construct_status h).imp_right fun ⟨ht, hm⟩ => .inl ⟨ht, mode, hm, rfl⟩
  | setSpeed percent => exact (exec_setSpeed_status h).imp_right (.inr <| .inl ·)
  | oneStep d => exact (exec_status_of_moveOf rfl h).imp_right (.inr <| .inl ·)
  | stepN count => exact (exec_status_of_moveOf rfl h).imp_right (.inr <| .inl ·)
  | stepAngle angle => exact (exec_status_of_moveOf rfl h).imp_right (.inr <| .inl ·)
  | shutdown =>
    obtain rfl := Host.Outcome.next.inj ((exec_shutdown s).symm.trans h)
    exact .inl rfl
  | reserved6 => exact .inr (.inr (.inr ⟨Host.Outcome.next.inj (h.symm.trans (exec_reserved6 s)), .inl rfl⟩))
  | reserved7 => exact .inr (.inr (.inr ⟨Host.Outcome.next.inj (h.symm.trans (exec_reserved7 s)), .inr rfl⟩))

/-! ### The obligations on CONSTRUCT and SET_SPEED -/

/-- Settles O9: of the four ways a command sets STATUS, only ConfigurationError has code 1. -/
theorem constructRejectsUnknownMode : Obligations.ConstructRejectsUnknownMode := by
  unfold Obligations.ConstructRejectsUnknownMode
  refine ⟨fun mode s hm => exec_construct_of_three_le hm s, fun i s t h hstatus => ?_⟩
  rcases exec_status_cases h with hok | ⟨_, hconstruct⟩ | ⟨rfl, _⟩ | ⟨rfl, _⟩
  · exact absurd (hok.symm.trans hstatus) (by decide)
  · exact hconstruct
  · exact absurd hstatus (by simp [CmdError.code])
  · exact absurd hstatus (by simp [CmdError.code])

/-- Settles O10: the equation of R113, with the width and the range of the speed mapping. -/
theorem setSpeedProgramsDwell : Obligations.SetSpeedProgramsDwell := by
  unfold Obligations.SetSpeedProgramsDwell
  intro percent s hc hp
  have hmul : Config.baseDwell.val * 100 = 100 * Config.baseDwell.val := Nat.mul_comm _ _
  refine ⟨exec_setSpeed_of_one_le hc hp, ?_, dwellInRange_dwellOfPercent percent hp, ?_⟩
  · exact (dwellOfPercent_toNat percent).trans (by rw [hmul])
  · exact hmul ▸ hundred_mul_baseDwell_lt

/-- Settles O8: the equation of R110 reads no register but the trace it appends to, so a configured block is no exception
(R117). -/
theorem constructStartsInstance : Obligations.ConstructStartsInstance := by
  unfold Obligations.ConstructStartsInstance
  exact fun mode s hm =>
    ⟨exec_construct_of_le hm s, (BitVec.toNat_ofNat _ _).trans (Nat.mod_eq_of_lt (by omega)), baseDwell_toNat⟩

/-- Settles O11: the command does what SHUTDOWN does. -/
theorem setSpeedNonPositiveStops : Obligations.SetSpeedNonPositiveStops := by
  unfold Obligations.SetSpeedNonPositiveStops
  exact fun _ s hc hp => (exec_setSpeed_of_nonpos hc hp).trans (exec_shutdown s)

/-- Settles O12: `CONFIGURED` is checked by SET_SPEED and not by SHUTDOWN. -/
theorem setSpeedStopComparedWithShutdown : Obligations.SetSpeedStopComparedWithShutdown := by
  unfold Obligations.SetSpeedStopComparedWithShutdown
  exact fun percent s hp => ⟨fun hc => exec_setSpeed_of_nonpos hc hp,
    fun hc => ⟨(exec_of_unconfigured hc).1 percent, exec_shutdown s⟩⟩

end Sys2Proof.Machine
end

section
/-! SUPPORT. The movement commands (spec/43_step_commands.md): STEP (R120), the closed form of MOVE (R122), STEP_N and its
negation (R125), and the rounding of STEP_ANGLE (R127). -/

namespace Sys2Proof.Machine

/-! ### STEP -/

/-- Settles O32: a row of the table is there to be read, and the index moves after it. -/
theorem stepWritesThenAdvancesThenHolds : Obligations.StepWritesThenAdvancesThenHolds := by
  unfold Obligations.StepWritesThenAdvancesThenHolds
  exact fun d s len hl hp => ⟨_, stepMicro_eq hl (romRead_row hl hp), rfl, nextIndex_toNat hl d s.phase hp⟩

/-! ### The closed form of MOVE -/

/-- MOVE from an index in its table: the loop's closed form, then the end of the move (R121, R122). -/
theorem runMove_eq (n : Word) (d : Direction) (rest : Bool) {s : State} {len : Nat} (hl : tableLen s.mode = some len)
    (hp : s.phase.toNat < len) :
    ∃ p tm, p.toNat = moveIndex len d s.phase.toNat n.toNat ∧
      runMove n d rest s = some (finishMove { s with
        phase := p
        lines := if n = 0#32 then s.lines else row s.mode (moveIndex len d s.phase.toNat (n.toNat - 1))
        busy := s.busy || decide (n ≠ 0#32), timer := tm, remain := 0#32, dir := d, rest := rest
        trace := s.trace ++ stepEvents s.mode s.dwell.toNat (moveIndex len d s.phase.toNat) n.toNat }) := by
  obtain ⟨p, tm, hphase, hloop⟩ := moveLoop_eq n.toNat
    { s with remain := n, dir := d, rest := rest, busy := s.busy || decide (n ≠ 0#32) } len hl hp rfl
  have hzero : n.toNat = 0 ↔ n = 0#32 := BitVec.toNat_inj (y := 0#32)
  refine ⟨p, tm, hphase, ?_⟩
  simp only [runMove, hloop, hzero]

theorem holdTicks_append (xs ys : List Event) : holdTicks (xs ++ ys) = holdTicks xs + holdTicks ys := by
  simp only [holdTicks, List.map_append, List.sum_append]

/-- Settles O25: `runMove_eq`, with the de-energize of a move that rests, and the holds of the steps alone. -/
theorem moveClosedForm : Obligations.MoveClosedForm := by
  unfold Obligations.MoveClosedForm
  intro n d rest s len hl hp
  obtain ⟨p, tm, hphase, hrun⟩ := runMove_eq n d rest hl hp
  refine ⟨_, _, hrun, rfl, ?_, (finishMove_phase _).symm ▸ hphase, finishMove_lines _, finishMove_mode _,
    finishMove_dwell _, finishMove_configured _, ?_⟩
  · rw [finishMove_trace]
    cases rest <;> simp
  · rw [holdTicks_append, holdTicks_stepEvents]
    exact Nat.le_add_right _ _

/-! ### STEP_N there and back -/

theorem signDirection_of_nonneg {x : Int} (h : 0 ≤ x) : signDirection x = .forward := if_neg (by omega)

theorem signDirection_of_neg {x : Int} (h : x < 0) : signDirection x = .reverse := if_pos h

/-- The counts that a command word can carry (R75, R77). -/
theorem stepN_wf {n : Int} (hlow : -2 ^ 31 ≤ n) (hhigh : n < 2 ^ 31) : (Instr.stepN n).wf = true := by
  simp only [Instr.wf, fitsSigned, hlow, hhigh, decide_true, Bool.and_true]

/-- On a configured block a movement command is `STATUS <- 0` and MOVE (R123, R124, R126). -/
theorem commandMove_of_runMove {n : Word} {d : Direction} {rest : Bool} {s t : State} (hc : s.configured = true)
    (hrun : runMove n d rest (setOk s) = some t) : commandMove n d rest s = .next t := by
  simp only [commandMove, hc, hrun, Bool.true_eq_false, if_false]

/-- STEP_N on a configured block (R122, R124): where it leaves the index and the lines. -/
theorem command_stepN {n : Int} {s : State} {len : Nat} (hwf : (Instr.stepN n).wf = true) (hc : s.configured = true)
    (hl : tableLen s.mode = some len) (hp : s.phase.toNat < len) :
    ∃ t, command (.stepN n) s = .next t ∧ t.configured = true ∧ t.mode = s.mode ∧
      t.phase.toNat = moveIndex len (signDirection n) s.phase.toNat n.natAbs ∧
      (n ≠ 0 → t.lines = row s.mode (moveIndex len (signDirection n) s.phase.toNat (n.natAbs - 1))) := by
  have hmag := magnitude_toNat_of_wf n hwf
  obtain ⟨p, tm, hphase, hrun⟩ := runMove_eq (magnitude n) (signDirection n) false (s := setOk s) hl hp
  refine ⟨_, commandMove_of_runMove hc hrun, (finishMove_configured _).trans hc, finishMove_mode _,
    (finishMove_phase _).symm ▸ hmag ▸ hphase, fun hn => ?_⟩
  have hne : magnitude n ≠ 0#32 := fun h => hn (Int.natAbs_eq_zero.mp (hmag ▸ congrArg BitVec.toNat h))
  rw [finishMove_lines]
  simp only [Bool.false_eq_true, if_false, if_neg hne, hmag, setOk_mode, setOk_phase]

/-- The index comes back, whichever way the count and its negation go (R95, R125). -/
theorem moveIndex_signDirection_neg {len p : Nat} (hp : p < len) (n : Int) :
    moveIndex len (signDirection (-n)) (moveIndex len (signDirection n) p n.natAbs) n.natAbs = p := by
  rcases Int.lt_trichotomy n 0 with hn | rfl | hn
  · rw [signDirection_of_neg hn, signDirection_of_nonneg (by omega)]
    exact moveIndex_forward_reverse hp n.natAbs
  · simp only [Int.natAbs_zero, moveIndex_zero _ hp]
  · rw [signDirection_of_nonneg hn.le, signDirection_of_neg (by omega)]
    exact moveIndex_reverse_forward hp n.natAbs

/-- The last of `k + 1` steps back writes the row after the one the steps forward began with: it starts `k` rows back from
where they ended (R125). -/
theorem moveIndex_last_step_back {m : BitVec 2} {len p : Nat} (hl : tableLen m = some len) (hp : p < len) (k : Nat) :
    moveIndex len .reverse (moveIndex len .forward p (k + 1)) k = (p + 1) % len := by
  rw [← moveIndex_succ (tableLen_cases hl).2 .forward hp k]
  exact moveIndex_reverse_forward (moveIndex_lt (tableLen_pos hl) .forward p 1) k

/-- Settles O26: the second command starts where the first ended, so the index of the pair is `moveIndex` there and back. -/
theorem stepNRoundTrip : Obligations.StepNRoundTrip := by
  unfold Obligations.StepNRoundTrip
  refine ⟨fun n s len hlow hhigh hc hl hp => ?_, by decide, by decide⟩
  obtain ⟨t, ht, htc, htm, htp, _⟩ := command_stepN (stepN_wf (n := n) (by omega) (by omega)) hc hl hp
  have htlt : t.phase.toNat < len := htp ▸ moveIndex_lt (tableLen_pos hl) _ _ _
  obtain ⟨u, hu, _, _, hup, hulines⟩ := command_stepN (stepN_wf (n := -n) (by omega) (by omega)) htc (htm ▸ hl) htlt
  rw [Int.natAbs_neg, htp] at hup hulines
  refine ⟨t, u, ht, hu, BitVec.eq_of_toNat_eq (hup.trans (moveIndex_signDirection_neg hp n)), fun hn => ?_⟩
  obtain ⟨k, hk⟩ : ∃ k, n.natAbs = k + 1 := Nat.exists_eq_add_one.mpr (by omega)
  rw [hulines (by omega), htm, hk, signDirection_of_nonneg hn.le, signDirection_of_neg (by omega),
    Nat.add_sub_cancel, moveIndex_last_step_back hl hp k]

/-! ### The rounding of STEP_ANGLE -/

theorem nearestSteps_eq (a : Nat) : nearestSteps a = (a + 22) / 45 := rfl

/-- No step count is cut by its 32 bits (R127). -/
theorem angleSteps_toNat_of_le {angle : Int} (h : angle.natAbs ≤ 2 ^ 31) :
    (angleSteps angle).toNat = (angle.natAbs + 22) / 45 := by
  rw [angleSteps, nearestSteps_eq, BitVec.toNat_ofNat]
  exact Nat.mod_eq_of_lt (by omega)

/-- The latch of the step count, loaded by every acceptance of a move (R190 (b)). -/
theorem acceptMove_remain (n : Word) (d : Direction) (rest : Bool) (s : State) : (acceptMove n d rest s).remain = n := by
  rcases acceptMove_cases n d rest s with ⟨_, h⟩ | ⟨_, _, h⟩ | ⟨_, _, h⟩ <;> rw [h]

/-- Settles O6: the rounding is arithmetic on `a`, which has no tie since 45 is odd; the acceptance loads its result. -/
theorem angleRoundsToNearestStep : Obligations.AngleRoundsToNearestStep := by
  unfold Obligations.AngleRoundsToNearestStep
  refine ⟨⟨rfl, rfl⟩, ?_⟩
  rintro a angle rfl hle
  have hsteps := angleSteps_toNat_of_le hle
  refine ⟨hsteps, by omega, by omega, ?_, fun k => by omega, fun s t hc ht => ?_⟩
  · rw [hsteps]
    omega
  · obtain rfl := Host.Outcome.next.inj ((exec_of_moveOf _ _ _ _ s rfl hc).1.symm.trans ht)
    exact acceptMove_remain _ _ _ s

end Sys2Proof.Machine
end

section
/-! SUPPORT. The de-energize command repeated (spec/44_shutdown.md, R142). -/

namespace Sys2Proof.Machine

/-- SHUTDOWN on a block already de-energized with STATUS OK: its write is an event, and nothing else is left to change. -/
theorem exec_shutdown_of_deenergized {s : State} (hlines : s.lines = 0#4) (hstatus : s.status = 0#2) :
    exec .shutdown s = .next { s with trace := s.trace ++ [.W 0#4] } := by
  rw [exec_shutdown, ← hlines, ← hstatus]

/-- Settles O14: the first SHUTDOWN leaves the lines and STATUS at the zeros the second one writes. -/
theorem shutdownIsIdempotent : Obligations.ShutdownIsIdempotent := by
  unfold Obligations.ShutdownIsIdempotent
  intro s t h
  obtain rfl := Host.Outcome.next.inj ((exec_shutdown s).symm.trans h)
  exact exec_shutdown_of_deenergized rfl rfl

end Sys2Proof.Machine
end

section
/-! SUPPORT. The errors of the block (spec/60_exceptions.md): what they change (R153, R156), and the order in which an
accepted word is checked for them (R158). -/

namespace Sys2Proof.Machine

/-! ### The status of a command -/

/-- SHUTDOWN "never raises" (R140). -/
theorem exec_shutdown_status {s t : State} (h : exec .shutdown s = .next t) : t.status = 0#2 := by
  obtain rfl := Host.Outcome.next.inj ((exec_shutdown s).symm.trans h)
  rfl

/-- A command that raises `e` where its check `P` fires, and completes or fails that check, has the status of the check. -/
theorem status_eq_ite {P : Prop} [Decidable P] {e : CmdError} {s t : State} (hraise : P → t = raise e s)
    (hcases : t.status = 0#2 ∨ (t = raise e s ∧ P)) : t.status = if P then e.code else 0#2 := by
  split
  case isTrue hP => rw [hraise hP, raise_status]
  case isFalse hP => exact hcases.resolve_right fun ⟨_, hP'⟩ => hP hP'

theorem exec_construct_status_eq {mode : Nat} {s t : State} (h : exec (.construct mode) s = .next t) :
    t.status = if 3 ≤ mode then 1#2 else 0#2 :=
  status_eq_ite (fun hm => Host.Outcome.next.inj (h.symm.trans (exec_construct_of_three_le hm s)))
    (exec_construct_status h)

theorem exec_setSpeed_status_eq {percent : Int} {s t : State} (h : exec (.setSpeed percent) s = .next t) :
    t.status = if s.configured = false then 2#2 else 0#2 :=
  status_eq_ite (fun hc => Host.Outcome.next.inj (h.symm.trans ((exec_of_unconfigured hc).1 percent)))
    (exec_setSpeed_status h)

theorem exec_status_eq_of_moveOf {i : Instr} {m : Word × Direction × Bool} (hm : moveOf i = some m) {s t : State}
    (h : exec i s = .next t) : t.status = if s.configured = false then 2#2 else 0#2 :=
  status_eq_ite (fun hc => Host.Outcome.next.inj (h.symm.trans (exec_of_moveOf_unconfigured hm hc)))
    (exec_status_of_moveOf hm h)

/-- Settles O15: the error of an unconfigured block has no other condition, and the checks of SHUTDOWN and CONSTRUCT give
no code 2. -/
theorem unconfiguredCommandsRaiseNotConfigured : Obligations.UnconfiguredCommandsRaiseNotConfigured := by
  unfold Obligations.UnconfiguredCommandsRaiseNotConfigured
  refine ⟨fun s hc => exec_of_unconfigured hc, ?_⟩
  rintro s t (h | ⟨mode, h⟩)
  · rw [exec_shutdown_status h]
    decide
  · rw [exec_construct_status_eq h]
    split <;> decide

/-! ### The acceptance of a word -/

theorem accept_of_decode {w : CommandWord} {i : Instr} (h : decode w = .instr i) (s : State) :
    accept w s = exec i s := by
  simp only [accept, h]

/-- Every accepted word completes its tick: no acceptance stops the block. -/
theorem accept_completes (w : CommandWord) (s : State) : ∃ t, accept w s = .next t := by
  rcases accept_cases w s with ⟨_, _, h⟩ | ⟨i, _, h⟩
  · exact ⟨_, h⟩
  · exact h ▸ exec_completes i s

/-- An acceptance gives OK, or it is the `raise` of one error (R156). -/
theorem accept_status_cases {w : CommandWord} {s t : State} (h : accept w s = .next t) :
    t.status = 0#2 ∨ ∃ e, t = raise e s := by
  rcases accept_cases w s with ⟨_, _, hreject⟩ | ⟨i, _, hexec⟩
  · exact .inr ⟨_, Host.Outcome.next.inj (h.symm.trans hreject)⟩
  · rcases exec_status_cases (hexec.symm.trans h) with hok | ⟨ht, _⟩ | ⟨ht, _⟩ | ⟨ht, _⟩
    · exact .inl hok
    all_goals exact .inr ⟨_, ht⟩

/-- No error arises in the middle of a move (R156): neither an EMIT tick nor a WAIT tick writes `STATUS`. -/
theorem step_status_of_busy {s t : State} (hr : s.rst = false) (hb : s.busy = true) (h : step s = .next t) :
    t.status = s.status := by
  have hcases : s.sub = .emit ∨ s.sub = .wait := by cases s.sub <;> simp
  rcases hcases with hsub | hsub
  · obtain ⟨_, _, _, _, rfl⟩ := emitTick_cases ((step_of_emit hr hb hsub).symm.trans h)
    rfl
  · obtain rfl := Host.Outcome.next.inj ((step_of_wait hr hb hsub).symm.trans h)
    exact waitTick_status s.portTick

/-- Settles O17: an acceptance that does not give OK is a `raise`, which writes `STATUS` alone. -/
theorem errorsChangeOnlyStatus : Obligations.ErrorsChangeOnlyStatus := by
  unfold Obligations.ErrorsChangeOnlyStatus
  refine ⟨fun w s => ?_, fun s t => step_status_of_busy⟩
  obtain ⟨t, ht⟩ := accept_completes w s
  refine ⟨t, ht, fun hne => ?_⟩
  rcases accept_status_cases ht with hok | ⟨e, rfl⟩
  · exact absurd hok hne
  · rfl

/-! ### The order of the checks -/

/-- The checks after the decoder's (R158): a word that is not reserved is the command of its `op`, whose own check decides. -/
theorem accept_status_of_not_reserved {op : BitVec 3} {arg : Word}
    (hres : ¬ (op = 6 ∨ op = 7 ∨ (op = 2 ∧ arg.extractLsb' 1 31 ≠ 0))) {s t : State}
    (h : accept (packWord op arg) s = .next t) :
    t.status =
      if (op = 1 ∨ op = 2 ∨ op = 3 ∨ op = 4) ∧ s.configured = false then 2#2
      else if op = 0 ∧ 3 ≤ arg.toNat then 1#2
      else 0#2 := by
  have hexec {i : Instr} (hd : decode (packWord op arg) = .instr i) : exec i s = .next t :=
    (accept_of_decode hd s).symm.trans h
  rcases op_cases op with rfl | rfl | rfl | rfl | rfl | rfl | rfl | rfl
  · simpa using exec_construct_status_eq (hexec (decode_packWord 0 arg))
  · simpa using exec_setSpeed_status_eq (hexec (decode_packWord 1 arg))
  · have hspare : spareBits arg = 0 := by
      by_contra hne
      exact hres (.inr (.inr ⟨rfl, hne⟩))
    simpa using exec_status_eq_of_moveOf rfl (hexec (decode_oneStep hspare))
  · simpa using exec_status_eq_of_moveOf rfl (hexec (decode_packWord 3 arg))
  · simpa using exec_status_eq_of_moveOf rfl (hexec (decode_packWord 4 arg))
  · simpa using exec_shutdown_status (hexec (decode_packWord 5 arg))
  · exact absurd (.inl rfl) hres
  · exact absurd (.inr (.inl rfl)) hres

/-- Settles O18: the decoder's check comes first, since `accept` decodes before it looks at the state; then the command's
own. -/
theorem errorChecksAreOrdered : Obligations.ErrorChecksAreOrdered := by
  unfold Obligations.ErrorChecksAreOrdered
  refine ⟨fun op arg s => ?_, fun w i s hd => accept_of_decode hd s, fun s => accepted_of_rst⟩
  obtain ⟨t, ht⟩ := accept_completes (packWord op arg) s
  refine ⟨t, ht, ?_⟩
  split
  case isTrue hres =>
    obtain rfl := Host.Outcome.next.inj ((accept_reserved op arg s hres).symm.trans ht)
    rfl
  case isFalse hres => exact accept_status_of_not_reserved hres ht

end Sys2Proof.Machine
end

section
/-! SUPPORT. The ticks of the block (spec/70_reset_and_hazards.md): the EMIT tick (R191), the WAIT tick and its hold (R192),
the idle tick (R190), and the agreement of the tick level with the command level (R193). The model's own `emitTick` and
`waitTick` have the bare names, so the statements about those ticks are `step_emitTick` and `step_waitTick`. -/

namespace Sys2Proof.Machine

/-! ### The EMIT tick -/

/-- Settles O36: a row of the table is there to be read, and the index moves on from its value before the tick. -/
theorem step_emitTick : Obligations.EmitTick := by
  unfold Obligations.EmitTick
  intro s len hr hb hs hl hp
  exact ⟨nextIndex len s.dir s.phase,
    (step_of_emit hr hb hs).trans (emitTick_eq (s := s.portTick) hl (romRead_row hl hp)),
    nextIndex_toNat hl s.dir s.phase hp⟩

/-! ### The WAIT tick -/

theorem waitTick_of_timer_ne {s : State} (ht : s.timer ≠ 0#32) : waitTick s = { s with timer := s.timer - 1#32 } :=
  if_pos ht

theorem waitTick_of_step_due {s : State} (ht : s.timer = 0#32) (hm : s.remain ≠ 0#32) :
    waitTick s = { s with sub := .emit } :=
  (if_neg (not_not.2 ht)).trans (if_pos hm)

theorem waitTick_of_last_hold_over {s : State} (ht : s.timer = 0#32) (hm : s.remain = 0#32) :
    waitTick s = finishMove s :=
  (if_neg (not_not.2 ht)).trans (if_neg (not_not.2 hm))

theorem finishMove_of_not_rest {s : State} (h : s.rest = false) : finishMove s = { s with busy := false } := by
  simp only [finishMove, h, Bool.false_eq_true, if_false]

/-- The closing de-energize (R128, R192). -/
theorem finishMove_of_rest {s : State} (h : s.rest = true) :
    finishMove s = { s with busy := false, lines := 0#4, trace := s.trace ++ [.W 0#4] } := by
  simp only [finishMove, h, if_true, lineWrite]

/-- Settles O37: one tick is a case of `waitTick`; a hold is `runTicks_wait` up to its last tick and `runTicks_hold` with
it. -/
theorem step_waitTick : Obligations.WaitTick := by
  unfold Obligations.WaitTick
  refine ⟨fun s hr hb hs => ?_, fun s hb hs hn => ⟨fun k hk => ?_, ?_⟩⟩
  · rw [step_of_wait hr hb hs]
    refine ⟨fun ht => ?_, fun ht hm => ?_, fun ht hm hrest => ?_, fun ht hm hrest => ?_⟩
    · rw [waitTick_of_timer_ne (s := s.portTick) ht, portTick_timer]
    · rw [waitTick_of_step_due (s := s.portTick) ht hm]
    · rw [waitTick_of_last_hold_over (s := s.portTick) ht hm, finishMove_of_not_rest (s := s.portTick) hrest]
    · rw [waitTick_of_last_hold_over (s := s.portTick) ht hm, finishMove_of_rest (s := s.portTick) hrest, portTick_trace]
  · obtain ⟨q, hrun⟩ := runTicks_wait k s hb hs hk (hn.mono (by omega))
    have hlt : s.timer.toNat - k < 2 ^ 32 := by have := s.timer.isLt; omega
    exact ⟨_, hrun, hb, hs, (BitVec.toNat_ofNat ..).trans (Nat.mod_eq_of_lt hlt), rfl⟩
  · obtain ⟨q, hrun⟩ := runTicks_hold s hb hs hn
    refine ⟨_, hrun, ?_⟩
    split
    · exact .inr rfl
    · exact .inl (finishMove_busy _)

/-! ### The two levels at an acceptance -/

theorem command_of_moveOf {i : Instr} {n : Word} {d : Direction} {rest : Bool} (hm : moveOf i = some (n, d, rest))
    (s : State) : command i s = commandMove n d rest s := by
  cases i with
  | oneStep | stepN | stepAngle =>
    obtain ⟨rfl, rfl, rfl⟩ := hm
    rfl
  | construct | setSpeed | shutdown | reserved6 | reserved7 => nomatch hm

/-- A command that moves nothing, by its kind or for want of a configured block, is the same at both levels (R190 (a)). -/
theorem exec_eq_command {i : Instr} {s : State} (h : moveOf i = none ∨ s.configured = false) :
    exec i s = command i s := by
  cases hm : moveOf i with
  | none =>
    cases i with
    | oneStep | stepN | stepAngle => nomatch hm
    | construct | setSpeed | shutdown | reserved6 | reserved7 => rfl
  | some m =>
    obtain ⟨n, d, rest⟩ := m
    have hc : s.configured = false := h.resolve_left (by simp [hm])
    rw [exec_of_moveOf_unconfigured hm hc, command_of_moveOf hm]
    exact (if_pos hc).symm

/-- Settles O33: an idle block takes what the host presents, so the tick is `accept` after the host's side of it. -/
theorem idleTick : Obligations.IdleTick := by
  unfold Obligations.IdleTick
  intro s hr hb
  have hacc := accepted_of_ready hr hb
  refine ⟨fun hnone => ?_, fun w hw => ⟨s.portTick, portTick_of_ready hr hb, ?_⟩⟩
  · rw [step_of_idle hr hb (hacc.trans hnone), portTick_of_ready hr hb]
  rw [step_of_accepted (hacc.trans hw)]
  refine ⟨fun r hd => ?_, fun i hd => ?_⟩
  · simp only [accept, hd]
    exact takeReject_eq r s.portTick
  rw [accept_of_decode hd]
  refine ⟨fun h => exec_eq_command (s := s.portTick) h, fun n d rest hm hc => ?_⟩
  rw [(exec_of_moveOf i n d rest s.portTick hm hc).1]
  rcases acceptMove_cases n d rest s.portTick with ⟨hn, h⟩ | ⟨rfl, rfl, h⟩ | ⟨rfl, rfl, h⟩
  · exact ⟨fun _ => congrArg _ h, fun hz => absurd hz hn, fun hz => absurd hz hn⟩
  · exact ⟨fun hne => absurd rfl hne, fun _ _ => congrArg _ h, nofun⟩
  · exact ⟨fun hne => absurd rfl hne, nofun, fun _ _ => congrArg _ h⟩

/-! ### The two levels at the end of a command -/

/-- `BUSY` is set by the acceptance of a move only (R29). -/
theorem exec_busy_of_no_move {i : Instr} {s t : State} (h : moveOf i = none ∨ s.configured = false)
    (ht : exec i s = .next t) : t.busy = s.busy := by
  rcases exec_cases i s with ⟨_, hx⟩ | ⟨_, _, _, hx⟩ | ⟨_, _, _, _, hx⟩ | hx | ⟨n, d, rest, hm, hc, _⟩
  case inr.inr.inr.inr => exact absurd h (not_or.2 ⟨by simp [hm], by simp [hc]⟩)
  all_goals
    obtain rfl := Host.Outcome.next.inj (hx.symm.trans ht)
    rfl

theorem moveLength_of_no_move {i : Instr} {s : State} (h : moveOf i = none ∨ s.configured = false) :
    moveLength i s = 0 := by
  unfold moveLength
  rcases h with h | h
  · rw [h]
  · split
    · rfl
    · exact if_pos h

theorem moveLength_of_moveOf {i : Instr} {n : Word} {d : Direction} {rest : Bool} (hm : moveOf i = some (n, d, rest))
    {s : State} (hc : s.configured = true) : moveLength i s = n.toNat := by
  simp only [moveLength, hm, hc, Bool.true_eq_false, if_false]

/-- What the command level sees of the end of a move: the closing de-energize, if there is one (R128). -/
theorem finishMove_commandView (s : State) :
    (finishMove s).commandView =
      if s.rest then { s.commandView with lines := 0#4, trace := s.commandView.trace ++ [.W 0#4] }
      else s.commandView := by
  unfold finishMove
  split <;> rfl

/-- A move of no step is accepted and ended in one tick (R128, R190 (b)). -/
theorem acceptMove_zero (d : Direction) (rest : Bool) {s : State} (hb : s.busy = false) :
    acceptMove 0#32 d rest s = finishMove { setOk s with remain := 0#32, dir := d, rest := rest } := by
  cases s
  cases hb
  cases rest <;> rfl

theorem acceptMove_of_ne_zero {n : Word} (hn : n ≠ 0#32) (d : Direction) (rest : Bool) (s : State) :
    acceptMove n d rest s = { s with
      status := 0#2, remain := n, dir := d, rest := rest, busy := true, sub := .emit } :=
  if_neg hn

/-- The tick level of a move, from its acceptance to its end, beside `runMove_eq` of the command level (R122, R193). -/
theorem runTicks_acceptMove (n : Word) (d : Direction) (rest : Bool) {s : State} {len : Nat} (hb : s.busy = false)
    (hl : tableLen s.mode = some len) (hp : s.phase.toNat < len) (hn : NoReset (n.toNat * (s.dwell.toNat + 2)) s) :
    ∃ p u, p.toNat = moveIndex len d s.phase.toNat n.toNat ∧
      runTicks (n.toNat * (s.dwell.toNat + 2)) (acceptMove n d rest s) = .next u ∧ u.busy = false ∧
      u.commandView = (finishMove { setOk s with
        phase := p, rest := rest
        lines := if n = 0#32 then s.lines else row s.mode (moveIndex len d s.phase.toNat (n.toNat - 1))
        trace := s.trace ++ stepEvents s.mode s.dwell.toNat (moveIndex len d s.phase.toNat) n.toNat }).commandView ∧
      ∀ k < n.toNat * (s.dwell.toNat + 2), ∃ x, runTicks k (acceptMove n d rest s) = .next x ∧ x.cmdReady = false := by
  by_cases hzero : n = 0#32
  · subst hzero
    have hlen : (0#32).toNat * (s.dwell.toNat + 2) = 0 := Nat.zero_mul _
    rw [hlen]
    refine ⟨s.phase, acceptMove 0#32 d rest s, (moveIndex_zero d hp).symm, rfl, ?_, ?_, nofun⟩
    · rw [acceptMove_zero d rest hb, finishMove_busy]
    · rw [acceptMove_zero d rest hb, finishMove_commandView, finishMove_commandView]
      simp [State.commandView, stepEvents]
  · obtain ⟨k, hk⟩ : ∃ k, n.toNat = k + 1 :=
      Nat.exists_eq_succ_of_ne_zero fun h => hzero (BitVec.eq_of_toNat_eq h)
    rw [acceptMove_of_ne_zero hzero, if_neg hzero]
    rw [hk] at hn ⊢
    obtain ⟨p, q, r, hphase, hrun, hbusy⟩ := runTicks_move k
      { s with status := 0#2, remain := n, dir := d, rest := rest, busy := true, sub := .emit } len rfl rfl hl hp hk hn
    refine ⟨p, _, hphase, hrun, finishMove_busy _, ?_, hbusy⟩
    rw [finishMove_commandView, finishMove_commandView]
    rfl

/-- R193 for a move on a configured block: both levels write the rows of the same indices. -/
theorem move_levels_agree (n : Word) (d : Direction) (rest : Bool) {s : State} {len : Nat} (hb : s.busy = false)
    (hc : s.configured = true) (hl : tableLen s.mode = some len) (hp : s.phase.toNat < len)
    (hn : NoReset (n.toNat * (s.dwell.toNat + 2)) s) :
    ∃ u v, commandMove n d rest s = .next v ∧
      runTicks (n.toNat * (s.dwell.toNat + 2)) (acceptMove n d rest s) = .next u ∧
      u.busy = false ∧ u.commandView = v.commandView ∧
      ∀ k < n.toNat * (s.dwell.toNat + 2), ∃ x, runTicks k (acceptMove n d rest s) = .next x ∧ x.cmdReady = false := by
  obtain ⟨p, u, hphase, hrun, hbusy, hview, hclosed⟩ := runTicks_acceptMove n d rest hb hl hp hn
  obtain ⟨p', tm, hphase', hmove⟩ := runMove_eq n d rest (s := setOk s) hl hp
  obtain rfl : p = p' := BitVec.eq_of_toNat_eq (hphase.trans hphase'.symm)
  refine ⟨u, _, commandMove_of_runMove hc hmove, hrun, hbusy, hview.trans ?_, hclosed⟩
  rw [finishMove_commandView, finishMove_commandView]
  rfl

/-- Settles O24: a command that moves nothing is one transition at both levels; a move runs through `move_levels_agree`,
from an index that R38's invariant puts in its table. -/
theorem tickLevelAgreesWithCommandLevel : Obligations.TickLevelAgreesWithCommandLevel := by
  unfold Obligations.TickLevelAgreesWithCommandLevel
  refine ⟨fun i s hinv hn => ?_, fun r s hb => ⟨_, takeReject_eq r s, hb, rfl⟩⟩
  by_cases hstill : moveOf i = none ∨ s.configured = false
  case pos =>
    obtain ⟨t, ht⟩ := exec_completes i s
    rw [moveLength_of_no_move hstill, Nat.zero_mul]
    exact ⟨t, t, t, ht, exec_eq_command hstill ▸ ht, rfl, (exec_busy_of_no_move hstill ht).trans hinv.inv1, rfl, nofun⟩
  case neg =>
    rw [not_or, Bool.not_eq_false] at hstill
    obtain ⟨hmove, hc⟩ := hstill
    obtain ⟨⟨n, d, rest⟩, hm⟩ := Option.ne_none_iff_exists'.1 hmove
    obtain ⟨len, hl, hp⟩ := hinv.inv3 hc
    rw [moveLength_of_moveOf hm hc] at hn ⊢
    obtain ⟨hexec, hcommand⟩ := exec_of_moveOf i n d rest s hm hc
    obtain ⟨u, v, hv, hagree⟩ := move_levels_agree n d rest hinv.inv1 hc hl hp hn
    exact ⟨_, u, v, hexec, hcommand.trans hv, hagree⟩

end Sys2Proof.Machine
end

section
/-! SUPPORT. The encoder and the decoder as inverses of each other (spec/30_encoding.md R71 to R84). -/

namespace Sys2Proof

/-! ### From a command to its word and back -/

/-- An unsigned operand in its range survives the 32-bit field (R74). -/
theorem toNat_ofNat_of_fits {n : Nat} (h : fitsUnsigned n = true) : (BitVec.ofNat 32 n).toNat = n :=
  (BitVec.toNat_ofNat _ _).trans (Nat.mod_eq_of_lt (of_decide_eq_true h))

/-- A direction is read back from the `arg` it is written as, which has no spare bit set (R76, R83). -/
theorem directionArg_decodes (d : Direction) :
    spareBits (directionArg d) = 0 ∧ directionOfBit ((directionArg d).getLsbD 0) = d := by
  cases d <;> decide

/-- Settles O1: a word decodes row by row, and an operand within its range survives the `arg` field. -/
theorem decodeEncodeRoundTrip : Obligations.DecodeEncodeRoundTrip := by
  unfold Obligations.DecodeEncodeRoundTrip
  intro i hwf
  cases i with
  | construct mode =>
    exact (decode_packWord 0 (BitVec.ofNat 32 mode)).trans (by rw [toNat_ofNat_of_fits hwf]; rfl)
  | setSpeed percent =>
    exact (decode_packWord 1 (BitVec.ofInt 32 percent)).trans (by rw [toInt_ofInt_of_fits percent hwf]; rfl)
  | oneStep d =>
    obtain ⟨hspare, hdirection⟩ := directionArg_decodes d
    exact (decode_oneStep hspare).trans (by rw [hdirection])
  | stepN count =>
    exact (decode_packWord 3 (BitVec.ofInt 32 count)).trans (by rw [toInt_ofInt_of_fits count hwf]; rfl)
  | stepAngle angle =>
    exact (decode_packWord 4 (BitVec.ofInt 32 angle)).trans (by rw [toInt_ofInt_of_fits angle hwf]; rfl)
  | shutdown => exact decode_packWord 5 0#32
  | reserved6 => exact decode_packWord 6 0#32
  | reserved7 => exact decode_packWord 7 0#32

/-! ### From a word to its command and back -/

/-- The command keeps the whole `arg` (R83). -/
theorem packWord_eq_canonicalWord {op : BitVec 3} (h : op.toNat < 5) {a arg : Word} (ha : a = arg) :
    packWord op a = canonicalWord (packWord op arg) := by
  have hnot : ¬ 5 ≤ op.toNat := by omega
  simp only [ha, canonicalWord, Laws.OpField.of_pack, hnot, if_false]

/-- The command ignores `arg` (R79, R80). -/
theorem canonicalWord_of_five_le {op : BitVec 3} (h : 5 ≤ op.toNat) (arg : Word) :
    canonicalWord (packWord op arg) = packWord op 0#32 := by
  simp only [canonicalWord, Laws.OpField.of_pack, h, if_true]

theorem fitsUnsigned_toNat (arg : Word) : fitsUnsigned arg.toNat = true := decide_eq_true arg.isLt

/-- What `decode` reads from `{op, arg}` fits its field, and is written as that word but for an ignored `arg`. -/
theorem encode_of_decode_packWord {op : BitVec 3} {arg : Word} {i : Instr} (h : decode (packWord op arg) = .instr i) :
    i.wf = true ∧ encode i = canonicalWord (packWord op arg) := by
  have heq {j : Instr} (hj : decode (packWord op arg) = .instr j) : j = i := Decoded.instr.inj (hj.symm.trans h)
  rcases op_cases op with rfl | rfl | rfl | rfl | rfl | rfl | rfl | rfl
  · obtain rfl := heq (decode_packWord 0 arg)
    exact ⟨fitsUnsigned_toNat arg, packWord_eq_canonicalWord (op := 0) (by decide)
      ((BitVec.ofNat_toNat 32 arg).trans (BitVec.setWidth_eq arg))⟩
  · obtain rfl := heq (decode_packWord 1 arg)
    exact ⟨Machine.fitsSigned_toInt arg, packWord_eq_canonicalWord (op := 1) (by decide) BitVec.ofInt_toInt⟩
  · have hspare : spareBits arg = 0 := by
      by_contra hne
      exact nomatch (decode_spareDirectionBits hne).symm.trans h
    obtain rfl := heq (decode_oneStep hspare)
    exact ⟨rfl, packWord_eq_canonicalWord (op := 2) (by decide) (directionArg_of_spare arg hspare)⟩
  · obtain rfl := heq (decode_packWord 3 arg)
    exact ⟨Machine.fitsSigned_toInt arg, packWord_eq_canonicalWord (op := 3) (by decide) BitVec.ofInt_toInt⟩
  · obtain rfl := heq (decode_packWord 4 arg)
    exact ⟨Machine.fitsSigned_toInt arg, packWord_eq_canonicalWord (op := 4) (by decide) BitVec.ofInt_toInt⟩
  · obtain rfl := heq (decode_packWord 5 arg)
    exact ⟨rfl, (canonicalWord_of_five_le (by decide) arg).symm⟩
  · obtain rfl := heq (decode_packWord 6 arg)
    exact ⟨rfl, (canonicalWord_of_five_le (by decide) arg).symm⟩
  · obtain rfl := heq (decode_packWord 7 arg)
    exact ⟨rfl, (canonicalWord_of_five_le (by decide) arg).symm⟩

/-- Settles O2: every word is `{op, arg}` of its two fields. -/
theorem encodeOfDecodedIsCanonical : Obligations.EncodeOfDecodedIsCanonical := by
  unfold Obligations.EncodeOfDecodedIsCanonical
  intro w i h
  rw [← packWord_fields w] at h ⊢
  exact encode_of_decode_packWord h

/-- Settles O4: ten closed words, each evaluated. -/
theorem testVectorWordsDecode : Obligations.TestVectorWordsDecode := by
  unfold Obligations.TestVectorWordsDecode
  decide

end Sys2Proof
end

section
/-! SUPPORT. What an accepted word does to an idle block, as one of five effects, each a function of the state; which one
it is depends on the word and on `CONFIGURED` alone (spec/70_reset_and_hazards.md R190). -/

namespace Sys2Proof.Machine

/-- What an accepted word does, once its checks are decided: it raises an error (R156), configures the block (R110), sets
the dwell (R113), de-energizes (R114, R140), or starts a move (R121). -/
inductive Effect where
  | error (e : CmdError)
  | construct (m : BitVec 2)
  | setDwell (d : Word)
  | deenergize
  | move (n : Word) (d : Direction) (rest : Bool)

/-- The effect on a state. -/
def Effect.run : Effect → State → State
  | .error e, s => raise e s
  | .construct m, s =>
    setOk { lineWrite 0#4 { s with mode := m } with phase := 0#3, dwell := baseDwell, configured := true }
  | .setDwell d, s => setOk { s with dwell := d }
  | .deenergize, s => setOk (lineWrite 0#4 s)
  | .move n d rest, s => acceptMove n d rest s

theorem exists_effect_of_moveOf {i : Instr} {m : Word × Direction × Bool} (hm : moveOf i = some m) (c : Bool) :
    ∃ e : Effect, ∀ s : State, s.configured = c → exec i s = .next (e.run s) := by
  obtain ⟨n, d, rest⟩ := m
  cases c with
  | false => exact ⟨.error .notConfigured, fun s hc => exec_of_moveOf_unconfigured hm hc⟩
  | true => exact ⟨.move n d rest, fun s hc => (exec_of_moveOf i n d rest s hm hc).1⟩

/-- The checks of a command look at its operand and at `CONFIGURED`, at no other register. -/
theorem exists_effect_of_exec (i : Instr) (c : Bool) :
    ∃ e : Effect, ∀ s : State, s.configured = c → exec i s = .next (e.run s) := by
  cases i with
  | construct mode =>
    rcases Nat.lt_or_ge 2 mode with hm | hm
    · exact ⟨.error .configurationError, fun s _ => exec_construct_of_three_le hm s⟩
    · exact ⟨.construct (BitVec.ofNat 2 mode), fun s _ => exec_construct_of_le hm s⟩
  | setSpeed percent =>
    cases c with
    | false => exact ⟨.error .notConfigured, fun s hc => (exec_of_unconfigured hc).1 percent⟩
    | true =>
      rcases Int.lt_or_le 0 percent with hp | hp
      · exact ⟨.setDwell (dwellOfPercent percent), fun s hc => exec_setSpeed_of_one_le hc hp⟩
      · exact ⟨.deenergize, fun s hc => exec_setSpeed_of_nonpos hc hp⟩
  | oneStep d => exact exists_effect_of_moveOf rfl c
  | stepN count => exact exists_effect_of_moveOf rfl c
  | stepAngle angle => exact exists_effect_of_moveOf rfl c
  | shutdown => exact ⟨.deenergize, fun _ _ => rfl⟩
  | reserved6 => exact ⟨.error .illegalCommand, fun _ _ => rfl⟩
  | reserved7 => exact ⟨.error .illegalCommand, fun _ _ => rfl⟩

/-- Two blocks that agree on `CONFIGURED` do the same with an accepted word. -/
theorem exists_effect_of_accept (w : CommandWord) (c : Bool) :
    ∃ e : Effect, ∀ s : State, s.configured = c → accept w s = .next (e.run s) := by
  cases hd : decode w with
  | reject r =>
    refine ⟨.error .illegalCommand, fun s _ => ?_⟩
    rw [accept, hd]
    exact takeReject_eq r s
  | instr i =>
    obtain ⟨e, he⟩ := exists_effect_of_exec i c
    exact ⟨e, fun s hc => (accept_of_decode hd s).trans (he s hc)⟩

end Sys2Proof.Machine
end

section
/-! SUPPORT. States alike but for registers that hold no value stay alike, operation by operation (spec/10_state.md R39). -/

namespace Sys2Proof.Machine

/-! ### Each operation of a tick -/

/-- A reset makes every register equal that holds a value afterwards, whatever its free values are. -/
theorem SameLive.resetTick {s t : State} (h : SameLive s t) : SameLive (resetTick s) (resetTick t) where
  configured := rfl
  lines := rfl
  status := rfl
  busy := rfl
  trace := rfl
  rstIn := h.rstIn
  cmdIn := h.cmdIn
  mode := nofun
  phase := nofun
  dwell := nofun
  remain := nofun
  dir := nofun
  rest := nofun
  sub := nofun
  timer := nofun

theorem SameLive.lineWrite {s t : State} (h : SameLive s t) (v : Pattern) : SameLive (lineWrite v s) (lineWrite v t) :=
  { h with lines := rfl, trace := congrArg (· ++ [Event.W v]) h.trace }

theorem SameLive.setStatus {s t : State} (h : SameLive s t) (c : BitVec 2) :
    SameLive { s with status := c } { t with status := c } :=
  { h with status := rfl }

/-- The end of a move: the in-flight registers are dead from here on. -/
theorem SameLive.clearBusy {s t : State} (h : SameLive s t) : SameLive { s with busy := false } { t with busy := false } :=
  { h with busy := rfl, remain := nofun, dir := nofun, rest := nofun, sub := nofun, timer := nofun }

theorem SameLive.finishMove {s t : State} (h : SameLive s t) (hb : s.busy = true) :
    SameLive (finishMove s) (finishMove t) := by
  unfold Machine.finishMove
  rw [← h.rest hb]
  split
  · exact (h.lineWrite 0#4).clearBusy
  · exact h.clearBusy

/-- A WAIT tick reads `TIMER`, `REMAIN` and `REST`, which hold values in a hold (R192). -/
theorem SameLive.waitTick {s t : State} (h : SameLive s t) (hb : s.busy = true) (hs : s.sub = .wait) :
    SameLive (waitTick s) (waitTick t) := by
  have htimer := h.timer hb hs
  have hremain := h.remain hb
  rcases waitTick_cases s with ⟨ht, hw⟩ | ⟨ht, hn, hw⟩ | ⟨ht, hn, hw⟩ <;> rw [hw]
  · rw [waitTick_of_timer_ne (s := t) (htimer ▸ ht)]
    exact { h with timer := fun _ _ => congrArg (· - 1#32) htimer }
  · rw [waitTick_of_step_due (s := t) (htimer ▸ ht) (hremain ▸ hn)]
    exact { h with sub := fun _ => rfl, timer := nofun }
  · rw [waitTick_of_last_hold_over (s := t) (htimer ▸ ht) (hremain ▸ hn)]
    exact h.finishMove hb

/-- An EMIT tick reads `MODE`, `PHASE`, `DWELL`, `DIR` and `REMAIN`, which hold values in a move of a configured block
(R191). -/
theorem SameLive.emitTick {s t s' : State} (h : SameLive s t) (hb : s.busy = true) (hc : s.configured = true)
    (hs : emitTick s = .next s') : ∃ t', emitTick t = .next t' ∧ SameLive s' t' := by
  obtain ⟨len, v, hl, hv, rfl⟩ := emitTick_cases hs
  have hmode := h.mode hc
  have hphase := h.phase hc
  have hdwell := h.dwell hc
  have hdir := h.dir hb
  have hremain := h.remain hb
  refine ⟨_, emitTick_eq (hmode ▸ hl) (hmode ▸ hphase ▸ hv), ?_⟩
  exact { h with
    lines := rfl
    phase := fun _ => by simp only [hdir, hphase]
    timer := fun _ _ => hdwell
    trace := by simp only [h.trace, hdwell]
    remain := fun _ => by simp only [hremain]
    sub := fun _ => rfl }

/-- The acceptance of a move loads the in-flight registers before any tick reads them (R190 (b)). -/
theorem SameLive.acceptMove {s t : State} (h : SameLive s t) (n : Word) (d : Direction) (rest : Bool) :
    SameLive (acceptMove n d rest s) (acceptMove n d rest t) := by
  have hloaded : SameLive { setOk s with remain := n, dir := d, rest := rest }
      { setOk t with remain := n, dir := d, rest := rest } :=
    { h.setStatus okCode with remain := fun _ => rfl, dir := fun _ => rfl, rest := fun _ => rfl }
  by_cases hn : n = 0#32
  · subst hn
    cases rest with
    | true => exact hloaded.lineWrite 0#4
    | false => exact hloaded
  · rw [acceptMove_of_ne_zero hn, acceptMove_of_ne_zero hn]
    exact { hloaded with
      busy := rfl, remain := fun _ => rfl, dir := fun _ => rfl, rest := fun _ => rfl, sub := fun _ => rfl, timer := nofun }

theorem SameLive.effect {s t : State} (h : SameLive s t) (e : Effect) : SameLive (e.run s) (e.run t) := by
  cases e with
  | error e => exact h.setStatus e.code
  | construct m =>
    exact { (h.lineWrite 0#4).setStatus okCode with
      mode := fun _ => rfl, phase := fun _ => rfl, dwell := fun _ => rfl, configured := rfl }
  | setDwell d => exact { h.setStatus okCode with dwell := fun _ => rfl }
  | deenergize => exact (h.lineWrite 0#4).setStatus okCode
  | move n d rest => exact h.acceptMove n d rest

/-! ### Every tick -/

/-- A tick of one of two states alike is a tick of the other: a move in flight is one of a configured block. -/
theorem SameLive.step {s t s' : State} (h : SameLive s t) (hbc : s.busy = true → s.configured = true)
    (hs : step s = .next s') : ∃ t', step t = .next t' ∧ SameLive s' t' := by
  obtain ⟨hrst, hacc, hport⟩ := h.portTick
  rcases step_cases s with ⟨hr, hx⟩ | ⟨hr, hb, hsub, hx⟩ | ⟨hr, hb, hsub, hx⟩ | ⟨hr, hb, ha, hx⟩ | ⟨w, _, _, ha, hx⟩ <;>
    rw [hx] at hs
  · obtain rfl := Host.Outcome.next.inj hs
    exact ⟨_, step_of_rst (hrst ▸ hr), hport.resetTick⟩
  · obtain ⟨t', ht', hlike⟩ := hport.emitTick hb (hbc hb) hs
    exact ⟨t', (step_of_emit (hrst ▸ hr) (h.busy ▸ hb) (h.sub hb ▸ hsub)).trans ht', hlike⟩
  · obtain rfl := Host.Outcome.next.inj hs
    exact ⟨_, step_of_wait (hrst ▸ hr) (h.busy ▸ hb) (h.sub hb ▸ hsub), hport.waitTick hb hsub⟩
  · obtain rfl := Host.Outcome.next.inj hs
    exact ⟨_, step_of_idle (hrst ▸ hr) (h.busy ▸ hb) (hacc ▸ ha), hport⟩
  · obtain ⟨e, he⟩ := exists_effect_of_accept w s.configured
    obtain rfl := Host.Outcome.next.inj ((he s.portTick rfl).symm.trans hs)
    exact ⟨_, (step_of_accepted (hacc ▸ ha)).trans (he t.portTick h.configured.symm), hport.effect e⟩

/-- Settles O56: the invariant gives what `SameLive.step` asks, and states alike show the same lines and status. -/
theorem unspecifiedRegistersNeverShow : Obligations.UnspecifiedRegistersNeverShow := by
  unfold Obligations.UnspecifiedRegistersNeverShow
  intro s t s' hinv hlike hs
  obtain ⟨t', ht', hlike'⟩ := hlike.step hinv.busy_configured hs
  exact ⟨t', ht', hlike', hlike'.lines, hlike'.status⟩

end Sys2Proof.Machine
end

section
/-! SUPPORT. The invariant at a tick and after reset, when a tick stops, and what a reset does (spec/10_state.md R38,
spec/20_memory.md R56, R59, spec/70_reset_and_hazards.md R180). -/

namespace Sys2Proof.Machine

/-- Settles O45: `Inv.step`, which goes through the operations of a tick one by one. -/
theorem stepKeepsInvariant : Obligations.StepKeepsInvariant := by
  unfold Obligations.StepKeepsInvariant
  exact fun _ _ => Inv.step

/-- Settles O44: the reset state has the zeros of R181, which give the invariant, and `BUSY` is one of them. -/
theorem resetMeetsInvariant : Obligations.ResetMeetsInvariant := by
  unfold Obligations.ResetMeetsInvariant
  have hreset : ResetState State.reset := ⟨rfl, rfl, rfl, rfl, rfl⟩
  exact ⟨hreset, hreset.inv, hreset.inv.boundaryInv rfl⟩

/-! ### When a tick stops -/

/-- The pattern read of an EMIT tick: no word, or a row of a table (R51, R59). -/
theorem emitTick_read_cases (s : State) :
    romRead s.mode s.phase = none ∨
    ∃ len v, tableLen s.mode = some len ∧ romRead s.mode s.phase = some v := by
  cases hstep : stepMicro s.dir s with
  | none => exact .inl (stepMicro_none hstep)
  | some t =>
    obtain ⟨len, v, hl, hv, _⟩ := stepMicro_cases hstep
    exact .inr ⟨len, v, hl, hv⟩

/-- An EMIT tick at a row of a table steps (R59, R191). -/
theorem emitTick_completes {s : State} (h : romRead s.mode s.phase ≠ none) : ∃ t, emitTick s = .next t := by
  obtain ⟨_, _, hl, hv⟩ := (emitTick_read_cases s).resolve_left h
  exact ⟨_, emitTick_eq hl hv⟩

/-- Settles O42: of the five kinds of tick only the EMIT tick can stop, and it does so on its pattern read alone. -/
theorem tickFaultsOnlyAtUnreachableAddress : Obligations.TickFaultsOnlyAtUnreachableAddress := by
  unfold Obligations.TickFaultsOnlyAtUnreachableAddress
  refine fun s => ⟨fun hr hb hsub hread => ?_, fun hreachable => ?_⟩
  · exact (step_of_emit hr hb hsub).trans (emitTick_of_romRead_none (s := s.portTick) hread)
  · rcases step_cases s with ⟨_, hx⟩ | ⟨hr, hb, hsub, hx⟩ | ⟨_, _, _, hx⟩ | ⟨_, _, _, hx⟩ | ⟨w, _, _, _, hx⟩ <;> rw [hx]
    · exact ⟨_, rfl⟩
    · exact emitTick_completes (s := s.portTick) fun hread => hreachable ⟨hr, hb, hsub, hread⟩
    · exact ⟨_, rfl⟩
    · exact ⟨_, rfl⟩
    · exact accept_completes w s.portTick

/-- Settles O47: a move in flight is one of a configured block, whose index the invariant puts in its table. -/
theorem noTickStopsUnderInvariant : Obligations.NoTickStopsUnderInvariant := by
  unfold Obligations.NoTickStopsUnderInvariant
  intro s hinv
  refine (tickFaultsOnlyAtUnreachableAddress s).2 fun ⟨_, hb, _, hread⟩ => ?_
  obtain ⟨len, hl, hp⟩ := hinv.phase_in_table (hinv.busy_configured hb)
  exact absurd (romRead_none hread len hl) (Nat.not_le.mpr hp)

/-! ### A move in flight -/

/-- What a WAIT tick leaves alone (R121, R192). -/
theorem waitTick_frame (s : State) :
    (waitTick s).mode = s.mode ∧ (waitTick s).dwell = s.dwell ∧ (waitTick s).configured = s.configured ∧
    (waitTick s).status = s.status ∧ (waitTick s).dir = s.dir ∧ (waitTick s).rest = s.rest ∧
    (waitTick s).resets = s.resets ∧ (waitTick s).remain = s.remain := by
  rcases waitTick_cases s with ⟨_, hw⟩ | ⟨_, _, hw⟩ | ⟨_, _, hw⟩ <;> rw [hw]
  · exact ⟨rfl, rfl, rfl, rfl, rfl, rfl, rfl, rfl⟩
  · exact ⟨rfl, rfl, rfl, rfl, rfl, rfl, rfl, rfl⟩
  · exact ⟨finishMove_mode s, finishMove_dwell s, finishMove_configured s, finishMove_status s, finishMove_dir s,
      finishMove_rest s, finishMove_resets s, finishMove_remain s⟩

/-- A WAIT tick ends a move only when its last hold is over (R192). -/
theorem waitTick_ends_move {s : State} (hb : s.busy = true) (h : (waitTick s).busy = false) :
    s.timer = 0#32 ∧ s.remain = 0#32 := by
  rcases waitTick_cases s with ⟨_, hw⟩ | ⟨_, _, hw⟩ | ⟨ht, hn, _⟩
  · exact absurd (hb.symm.trans (hw ▸ h)) (by decide)
  · exact absurd (hb.symm.trans (hw ▸ h)) (by decide)
  · exact ⟨ht, hn⟩

/-- Settles O41: neither tick of a move writes a latch of it, and only the WAIT tick of a spent move clears `BUSY`. -/
theorem moveInFlightIsNotRedirected : Obligations.MoveInFlightIsNotRedirected := by
  unfold Obligations.MoveInFlightIsNotRedirected
  intro s t hr hb h
  have hcases : s.sub = .emit ∨ s.sub = .wait := by cases s.sub <;> simp
  rcases hcases with hsub | hsub
  · obtain ⟨_, _, _, _, rfl⟩ := emitTick_cases ((step_of_emit hr hb hsub).symm.trans h)
    exact ⟨rfl, rfl, rfl, rfl, rfl, rfl, rfl, (if_pos hsub).symm, fun hend => absurd (hb.symm.trans hend) (by decide)⟩
  · obtain rfl := Host.Outcome.next.inj ((step_of_wait hr hb hsub).symm.trans h)
    obtain ⟨hmode, hdwell, hconfigured, hstatus, hdir, hrest, hresets, hremain⟩ := waitTick_frame s.portTick
    have hnot : s.sub ≠ .emit := by simp [hsub]
    exact ⟨hmode, hdwell, hconfigured, hstatus, hdir, hrest, hresets, hremain.trans (if_neg hnot).symm,
      fun hend => ⟨hsub, waitTick_ends_move (s := s.portTick) hb hend⟩⟩

/-! ### Reset -/

/-- Settles O43: `resetTick` after a port that accepts nothing; `CONFIGURED` has no other tick that clears it, and a move
no other early end. -/
theorem step_resetTick : Obligations.ResetTick := by
  unfold Obligations.ResetTick
  refine ⟨fun s hr => ?_, fun s t h hc hc' => ?_, fun s t h hb hb' => ?_⟩
  · have hacc := accepted_of_rst hr
    refine ⟨_, step_of_rst hr, resetState_resetTick _, hacc, fun w hw => ?_⟩
    rw [resetTick_cmdIn, portTick_cmdIn, hacc]
    exact hostMoves_of_presented hw
  · rcases step_configured_cases h with ⟨hr, _⟩ | ⟨_, _, _, _, _, hset⟩ | hsame
    · exact hr
    · exact absurd (hset.symm.trans hc') (by decide)
    · exact absurd (hc.symm.trans (hsame.symm.trans hc')) (by decide)
  · cases hr : s.rst with
    | true => exact .inl rfl
    | false =>
      obtain ⟨_, _, _, _, _, _, _, _, hend⟩ := moveInFlightIsNotRedirected s t hr hb h
      exact .inr (hend hb')

end Sys2Proof.Machine
end

section
/-! SUPPORT. What no tick reads: `STATUS` (spec/10_state.md R28), `LINES` (R27) and the trace (R41), operation by
operation. -/

namespace Sys2Proof.Machine

/-! ### `STATUS` -/

theorem emitTick_with_status (s : State) (c : BitVec 2) :
    emitTick { s with status := c } = mapNext (fun t => { t with status := c }) (emitTick s) := by
  rcases emitTick_read_cases s with hread | ⟨len, v, hl, hv⟩
  · rw [emitTick_of_romRead_none hread, emitTick_of_romRead_none (s := { s with status := c }) hread]
    rfl
  · rw [emitTick_eq hl hv, emitTick_eq (s := { s with status := c }) hl hv]
    rfl

/-- Every effect of an accepted word writes `STATUS` (R150). -/
theorem Effect.run_with_status (e : Effect) (s : State) (c : BitVec 2) : e.run { s with status := c } = e.run s := by
  cases e <;> rfl

/-- A tick that accepts nothing carries `STATUS` along (R28). -/
theorem step_with_status {s : State} (hr : s.rst = false) (hacc : s.accepted = none) (c : BitVec 2) :
    step { s with status := c } = mapNext (fun t => { t with status := c }) (step s) := by
  rcases step_cases s with ⟨hrst, _⟩ | ⟨_, hb, hsub, hx⟩ | ⟨_, hb, hsub, hx⟩ | ⟨_, hb, _, hx⟩ | ⟨w, _, _, ha, _⟩
  · exact absurd (hr.symm.trans hrst) (by decide)
  · rw [hx, ← emitTick_with_status]
    exact step_of_emit (s := { s with status := c }) hr hb hsub
  · refine (step_of_wait (s := { s with status := c }) hr hb hsub).trans ?_
    rw [hx]
    exact congrArg _ (waitTick_with_status s.portTick c)
  · rw [hx]
    exact step_of_idle (s := { s with status := c }) hr hb hacc
  · exact nomatch hacc.symm.trans ha

/-- `step_with_status` at the value that is there. -/
theorem step_status_of_not_accepted {s t : State} (hr : s.rst = false) (hacc : s.accepted = none)
    (h : step s = .next t) : t.status = s.status := by
  have hsame := step_with_status hr hacc s.status
  rw [h, mapNext] at hsame
  have hnext := Host.Outcome.next.inj hsame
  have hstatus := congrArg State.status hnext
  exact hstatus

/-- Settles O52: a reset and an effect overwrite `STATUS`; every other tick carries it along. -/
theorem statusIsWrittenAtAcceptanceOnly : Obligations.StatusIsWrittenAtAcceptanceOnly := by
  unfold Obligations.StatusIsWrittenAtAcceptanceOnly
  refine fun s c => ⟨fun hr => ?_, fun hr hacc => ?_, fun w ha => ?_⟩
  · exact ⟨_, step_of_rst hr, rfl, (step_of_rst (s := { s with status := c }) hr).trans (step_of_rst hr).symm⟩
  · exact ⟨fun t => step_status_of_not_accepted hr hacc, step_with_status hr hacc c⟩
  · obtain ⟨e, he⟩ := exists_effect_of_accept w s.configured
    calc step { s with status := c }
        = accept w { s.portTick with status := c } := step_of_accepted (s := { s with status := c }) ha
      _ = .next (e.run { s.portTick with status := c }) := he _ rfl
      _ = .next (e.run s.portTick) := congrArg _ (e.run_with_status s.portTick c)
      _ = accept w s.portTick := (he s.portTick rfl).symm
      _ = step s := (step_of_accepted ha).symm

/-! ### `LINES` -/

/-- A state with its lines blanked: what is left to compare when the lines do not count. -/
def State.dark (s : State) : State := { s with lines := 0#4 }

theorem emitTick_with_lines (s : State) (v : Pattern) : emitTick { s with lines := v } = emitTick s := by
  rcases emitTick_read_cases s with hread | ⟨len, u, hl, hu⟩
  · rw [emitTick_of_romRead_none hread, emitTick_of_romRead_none (s := { s with lines := v }) hread]
  · rw [emitTick_eq hl hu, emitTick_eq (s := { s with lines := v }) hl hu]

theorem dark_finishMove_with_lines (s : State) (v : Pattern) :
    (finishMove { s with lines := v }).dark = (finishMove s).dark := by
  rcases s.rest.eq_false_or_eq_true with hrest | hrest
  · rw [finishMove_of_rest hrest, finishMove_of_rest (s := { s with lines := v }) hrest]
  · rw [finishMove_of_not_rest hrest, finishMove_of_not_rest (s := { s with lines := v }) hrest]
    rfl

theorem dark_waitTick_with_lines (s : State) (v : Pattern) :
    (waitTick { s with lines := v }).dark = (waitTick s).dark := by
  rcases waitTick_cases s with ⟨ht, hw⟩ | ⟨ht, hn, hw⟩ | ⟨ht, hn, hw⟩ <;> rw [hw]
  · rw [waitTick_of_timer_ne (s := { s with lines := v }) ht]
    rfl
  · rw [waitTick_of_step_due (s := { s with lines := v }) ht hn]
    rfl
  · rw [waitTick_of_last_hold_over (s := { s with lines := v }) ht hn]
    exact dark_finishMove_with_lines s v

theorem Effect.dark_run_with_lines (e : Effect) (s : State) (v : Pattern) :
    (e.run { s with lines := v }).dark = (e.run s).dark := by
  cases e with
  | error | construct | setDwell | deenergize => rfl
  | move n d rest =>
    by_cases hn : n = 0#32
    · subst hn
      cases rest <;> rfl
    · rw [Effect.run, Effect.run, acceptMove_of_ne_zero hn, acceptMove_of_ne_zero hn]
      rfl

/-- Settles O53: every operation of a tick gives the same state but for the lines. -/
theorem linesAreNeverRead : Obligations.LinesAreNeverRead := by
  unfold Obligations.LinesAreNeverRead
  intro s v
  change mapNext State.dark (step { s with lines := v }) = mapNext State.dark (step s)
  rcases step_cases s with ⟨hr, hx⟩ | ⟨hr, hb, hsub, hx⟩ | ⟨hr, hb, hsub, hx⟩ | ⟨hr, hb, ha, hx⟩ | ⟨w, _, _, ha, hx⟩ <;>
    rw [hx]
  · exact congrArg _ (step_of_rst (s := { s with lines := v }) hr)
  · rw [step_of_emit (s := { s with lines := v }) hr hb hsub, ← emitTick_with_lines s.portTick v]
    rfl
  · rw [step_of_wait (s := { s with lines := v }) hr hb hsub]
    exact congrArg Host.Outcome.next (dark_waitTick_with_lines s.portTick v)
  · rw [step_of_idle (s := { s with lines := v }) hr hb ha]
    rfl
  · obtain ⟨e, he⟩ := exists_effect_of_accept w s.configured
    rw [step_of_accepted (s := { s with lines := v }) ha, he s.portTick rfl, he ({ s with lines := v } : State).portTick rfl]
    exact congrArg Host.Outcome.next (e.dark_run_with_lines s.portTick v)

/-! ### The trace -/

/-- At `s`, `f` appends a fixed short list of events to the trace, and is the same whatever the trace holds (R41). -/
def AppendsOnly (f : State → Host.Outcome State Fault Refusal) (s : State) : Prop :=
  ∃ ev : List Event, ev.length ≤ 2 ∧
    ∀ tr : List Event, f { s with trace := tr } = mapNext (fun t => { t with trace := tr ++ ev }) (f s)

theorem appendsOnly_emitTick (s : State) : AppendsOnly emitTick s := by
  rcases emitTick_read_cases s with hread | ⟨len, v, hl, hv⟩
  · refine ⟨[], by decide, fun tr => ?_⟩
    rw [emitTick_of_romRead_none hread, emitTick_of_romRead_none (s := { s with trace := tr }) hread]
    rfl
  · refine ⟨[.W v, .H s.dwell.toNat], Nat.le_refl 2, fun tr => ?_⟩
    rw [emitTick_eq hl hv, emitTick_eq (s := { s with trace := tr }) hl hv]
    rfl

/-- What appends nothing. -/
theorem appendsOnly_of_carries {f : State → State} {s : State}
    (h : ∀ tr, f { s with trace := tr } = { f s with trace := tr }) : AppendsOnly (fun t => .next (f t)) s :=
  ⟨[], by decide, fun tr => congrArg Host.Outcome.next ((h tr).trans (by rw [List.append_nil]))⟩

/-- What appends a de-energize and nothing else (R55). -/
theorem appendsOnly_of_writes_zero {f : State → State} {s : State}
    (h : ∀ tr, f { s with trace := tr } = { f s with trace := tr ++ [.W 0#4] }) : AppendsOnly (fun t => .next (f t)) s :=
  ⟨[.W 0#4], by decide, fun tr => congrArg _ (h tr)⟩

theorem appendsOnly_finishMove (s : State) : AppendsOnly (fun t => .next (finishMove t)) s := by
  rcases s.rest.eq_false_or_eq_true with hrest | hrest
  · refine appendsOnly_of_writes_zero fun tr => ?_
    rw [finishMove_of_rest hrest, finishMove_of_rest (s := { s with trace := tr }) hrest]
  · refine appendsOnly_of_carries fun tr => ?_
    rw [finishMove_of_not_rest hrest, finishMove_of_not_rest (s := { s with trace := tr }) hrest]

theorem appendsOnly_waitTick (s : State) : AppendsOnly (fun t => .next (waitTick t)) s := by
  rcases waitTick_cases s with ⟨ht, hw⟩ | ⟨ht, hn, hw⟩ | ⟨ht, hn, hw⟩
  · exact appendsOnly_of_carries fun tr => by rw [hw, waitTick_of_timer_ne (s := { s with trace := tr }) ht]
  · exact appendsOnly_of_carries fun tr => by rw [hw, waitTick_of_step_due (s := { s with trace := tr }) ht hn]
  · obtain ⟨ev, hlen, hev⟩ := appendsOnly_finishMove s
    refine ⟨ev, hlen, fun tr => ?_⟩
    simp only [hw, waitTick_of_last_hold_over (s := { s with trace := tr }) ht hn]
    exact hev tr

theorem Effect.appendsOnly_run (e : Effect) (s : State) : AppendsOnly (fun t => .next (e.run t)) s := by
  cases e with
  | error | setDwell => exact appendsOnly_of_carries fun _ => rfl
  | construct | deenergize => exact appendsOnly_of_writes_zero fun _ => rfl
  | move n d rest =>
    by_cases hn : n = 0#32
    · subst hn
      cases rest with
      | true => exact appendsOnly_of_writes_zero fun _ => rfl
      | false => exact appendsOnly_of_carries fun _ => rfl
    · refine appendsOnly_of_carries fun tr => ?_
      rw [Effect.run, Effect.run, acceptMove_of_ne_zero hn, acceptMove_of_ne_zero hn]

/-- A tick with `rst = 0` does to the trace what its one operation does. -/
theorem appendsOnly_step {s : State} (hr : s.rst = false) : AppendsOnly step s := by
  have hport {f : State → Host.Outcome State Fault Refusal} (hf : AppendsOnly f s.portTick)
      (hstep : ∀ tr, step { s with trace := tr } = f { s.portTick with trace := tr }) : AppendsOnly step s := by
    obtain ⟨ev, hlen, hev⟩ := hf
    exact ⟨ev, hlen, fun tr => by rw [hstep, hev]; exact congrArg _ (hstep s.trace).symm⟩
  rcases step_cases s with ⟨hrst, _⟩ | ⟨_, hb, hsub, _⟩ | ⟨_, hb, hsub, _⟩ | ⟨_, hb, ha, _⟩ | ⟨w, _, _, ha, _⟩
  · exact absurd (hr.symm.trans hrst) (by decide)
  · exact hport (appendsOnly_emitTick _) fun tr => step_of_emit (s := { s with trace := tr }) hr hb hsub
  · exact hport (appendsOnly_waitTick _) fun tr => step_of_wait (s := { s with trace := tr }) hr hb hsub
  · exact hport (f := .next) (appendsOnly_of_carries fun _ => rfl)
      fun tr => step_of_idle (s := { s with trace := tr }) hr hb ha
  · obtain ⟨e, he⟩ := exists_effect_of_accept w s.configured
    exact hport (e.appendsOnly_run _)
      fun tr => (step_of_accepted (s := { s with trace := tr }) ha).trans (he _ rfl)

/-- Settles O55: `AppendsOnly`, of the tick. -/
theorem traceIsAppendedAndNeverRead : Obligations.TraceIsAppendedAndNeverRead := by
  unfold Obligations.TraceIsAppendedAndNeverRead
  exact fun _ => appendsOnly_step

end Sys2Proof.Machine
end

section
/-! SUPPORT. Who writes the configuration registers (spec/10_state.md R24, R25, R26), and what the lines show
(spec/20_memory.md R61, spec/70_reset_and_hazards.md R186). -/

namespace Sys2Proof.Machine

/-! ### `MODE`, `PHASE`, `DWELL` -/

/-- Settles O49: of all that a tick can do with `rst = 0`, only a CONSTRUCT of a recognized mode writes `MODE`. -/
theorem modeWrittenOnlyByConstruct : Obligations.ModeWrittenOnlyByConstruct := by
  unfold Obligations.ModeWrittenOnlyByConstruct
  refine ⟨fun s t h hne => ?_, fun _ => rfl⟩
  rcases step_writes_cases s t h with hr | ⟨_, _, hm, _⟩ | ⟨hm, _⟩ | ⟨w, mode, ha, hd, hle, hm, _⟩ | ⟨_, _, _, _, _, hm, _⟩
  · exact .inl hr
  · exact absurd hm hne
  · exact absurd hm hne
  · refine .inr ⟨w, mode, ha, hd, hle, ?_⟩
    rw [hm, BitVec.toNat_ofNat]
    exact Nat.mod_eq_of_lt (by omega)
  · exact absurd hm hne

/-- Settles O50: a step moves `PHASE` and a CONSTRUCT clears it; the invariant keeps it in its table. -/
theorem phaseMovedOnlyByStep : Obligations.PhaseMovedOnlyByStep := by
  unfold Obligations.PhaseMovedOnlyByStep
  refine ⟨fun s t h hne => ?_, fun s hs => hs.inv.phase_in_table⟩
  rcases step_writes_cases s t h with hr | ⟨_, hb, _, _, _, hp | ⟨hsub, hp⟩⟩ | ⟨_, _, _, hp⟩ |
    ⟨w, mode, ha, hd, hle, _, _, _, hp⟩ | ⟨_, _, _, _, _, _, _, _, hp⟩
  · exact .inl hr
  · exact absurd hp hne
  · exact .inr (.inl ⟨hb, hsub, hp⟩)
  · exact absurd hp hne
  · exact .inr (.inr ⟨w, mode, ha, hd, hle, hp⟩)
  · exact absurd hp hne

/-- Settles O51: a CONSTRUCT and a SET_SPEED write `DWELL`; the invariant keeps it in range. -/
theorem dwellWriters : Obligations.DwellWriters := by
  unfold Obligations.DwellWriters
  refine ⟨fun s t h hne => ?_, fun s hs => hs.inv.dwell_in_range⟩
  rcases step_writes_cases s t h with hr | ⟨_, _, _, hw, _⟩ | ⟨_, hw, _⟩ | ⟨w, mode, ha, hd, hle, _, hw, _⟩ |
    ⟨w, percent, ha, hd, hp, _, hw, _⟩
  · exact .inl hr
  · exact absurd hw hne
  · exact absurd hw hne
  · exact .inr (.inl ⟨w, mode, ha, hd, hle, hw ▸ baseDwell_toNat⟩)
  · exact .inr (.inr ⟨w, percent, ha, hd, hp, hw⟩)

/-! ### The lines and the trace's latest write -/

/-- The lines show the latest write of the trace (R61). -/
def LinesTraced (s : State) : Prop := s.lines = lastWrite s.trace

theorem linesTraced_lineWrite (v : Pattern) (s : State) : LinesTraced (lineWrite v s) := (lastWrite_append_W _ _).symm

theorem LinesTraced.finishMove {s : State} (h : LinesTraced s) : LinesTraced (finishMove s) := by
  unfold Machine.finishMove
  split
  · exact linesTraced_lineWrite 0#4 s
  · exact h

theorem LinesTraced.waitTick {s : State} (h : LinesTraced s) : LinesTraced (waitTick s) := by
  rcases waitTick_cases s with ⟨_, hw⟩ | ⟨_, _, hw⟩ | ⟨_, _, hw⟩ <;> rw [hw]
  · exact h
  · exact h
  · exact h.finishMove

theorem linesTraced_of_emitTick {s t : State} (ht : emitTick s = .next t) : LinesTraced t := by
  obtain ⟨_, _, _, _, rfl⟩ := emitTick_cases ht
  exact (lastWrite_append_W_H _ _ _).symm

theorem LinesTraced.effect {s : State} (h : LinesTraced s) (e : Effect) : LinesTraced (e.run s) := by
  cases e with
  | error | setDwell => exact h
  | construct | deenergize => exact linesTraced_lineWrite 0#4 s
  | move n d rest =>
    rcases acceptMove_cases n d rest s with ⟨_, ha⟩ | ⟨_, _, ha⟩ | ⟨_, _, ha⟩ <;> rw [Effect.run, ha]
    · exact h
    · exact linesTraced_lineWrite 0#4 s
    · exact h

theorem LinesTraced.step {s t : State} (h : LinesTraced s) (ht : step s = .next t) : LinesTraced t := by
  rcases step_cases s with ⟨_, hx⟩ | ⟨_, _, _, hx⟩ | ⟨_, _, _, hx⟩ | ⟨_, _, _, hx⟩ | ⟨w, _, _, _, hx⟩ <;> rw [hx] at ht
  · obtain rfl := Host.Outcome.next.inj ht
    rfl
  · exact linesTraced_of_emitTick ht
  · obtain rfl := Host.Outcome.next.inj ht
    exact LinesTraced.waitTick (s := s.portTick) h
  · obtain rfl := Host.Outcome.next.inj ht
    exact h
  · obtain ⟨e, he⟩ := exists_effect_of_accept w s.configured
    obtain rfl := Host.Outcome.next.inj ((he s.portTick rfl).symm.trans ht)
    exact LinesTraced.effect (s := s.portTick) h e

/-- Settles O54: every tick keeps `LinesTraced`, so equal traces show equal lines. -/
theorem linesShowLatestWrite : Obligations.LinesShowLatestWrite := by
  unfold Obligations.LinesShowLatestWrite
  intro s t h hstep
  have ht : LinesTraced t := LinesTraced.step h hstep
  exact ⟨ht, fun hne htrace => hne (ht.trans ((congrArg lastWrite htrace).trans h.symm))⟩

/-! ### De-energized lines -/

/-- A move that rests leaves the lines off: its loop keeps `REST` (R128). -/
theorem lines_of_runMove_rest {n : Word} {d : Direction} {s t : State} (h : runMove n d true s = some t) :
    t.lines = 0#4 := by
  dsimp only [runMove] at h
  split at h
  case h_1 => exact nomatch h
  case h_2 u hloop =>
    obtain rfl := Option.some.inj h
    rw [finishMove_lines, moveLoop_rest _ _ _ hloop]
    rfl

theorem lines_of_commandMove_rest {n : Word} {d : Direction} {s t : State} (hc : s.configured = true)
    (h : commandMove n d true s = .next t) : t.lines = 0#4 := by
  cases hrun : runMove n d true (setOk s) with
  | none => simp [commandMove, hc, hrun] at h
  | some u =>
    obtain rfl := Host.Outcome.next.inj ((commandMove_of_runMove hc hrun).symm.trans h)
    exact lines_of_runMove_rest hrun

/-- Settles O57: each of the five writes zero last, and the invariant holds of every reachable state. -/
theorem deenergizedLinesAreGuaranteed : Obligations.DeenergizedLinesAreGuaranteed := by
  unfold Obligations.DeenergizedLinesAreGuaranteed
  refine ⟨fun s t hr h => ?_, fun mode s t hm h => ?_, fun s t h => ?_, fun percent s t hc hp h => ?_,
    fun angle s t hc h => lines_of_commandMove_rest hc h, fun s hs => hs.inv.unconfigured_off⟩
  · obtain rfl := Host.Outcome.next.inj ((step_of_rst hr).symm.trans h)
    rfl
  · obtain rfl := Host.Outcome.next.inj ((exec_construct_of_le hm s).symm.trans h)
    rfl
  · obtain rfl := Host.Outcome.next.inj ((exec_shutdown s).symm.trans h)
    rfl
  · obtain rfl := Host.Outcome.next.inj (((exec_setSpeed_of_nonpos hc hp).trans (exec_shutdown s)).symm.trans h)
    rfl

end Sys2Proof.Machine
end

section
/-! SUPPORT. The ports of the block: what an accepted word is, a word of the table put at the port, and the outputs
(spec/30_encoding.md R70, spec/10_state.md R40). -/

namespace Sys2Proof.Machine

/-- Settles O34: an accepted word is the head of an idle block's port, and the tick is its acceptance. -/
theorem stepRunsDecodedInstruction : Obligations.StepRunsDecodedInstruction := by
  unfold Obligations.StepRunsDecodedInstruction
  intro s w ha
  obtain ⟨hr, hb, q, hq⟩ := accepted_some ha
  refine ⟨portTick_of_ready hr hb, by rw [hq]; rfl, fun i hd => ?_, fun r hd => ?_⟩
  · rw [step_of_accepted ha, accept_of_decode hd]
  · rw [step_of_accepted ha, accept, hd]

/-- The command that the table's decoder reads is the one the port's decoder reads from the word's low 35 bits (R71). -/
theorem decode_of_decodeTableWord {nbits w : Nat} {i : Instr} (h : decodeTableWord nbits w = some i) :
    decode (BitVec.ofNat 35 (w % 2 ^ nbits)) = .instr i := by
  unfold decodeTableWord wordOfTable at h
  by_cases hfits : w % 2 ^ nbits < 2 ^ 35
  · rw [if_pos hfits] at h
    cases hd : decode (BitVec.ofNat 35 (w % 2 ^ nbits)) <;> simp_all
  · rw [if_neg hfits] at h
    exact nomatch h

/-- Settles O35: the word stands at a port that is ready, so the coming tick accepts it. -/
theorem presentedTableWordRunsNext : Obligations.PresentedTableWordRunsNext := by
  unfold Obligations.PresentedTableWordRunsNext
  intro s nbits w i h
  have ha : (s.withFetchWord nbits w).accepted = some (BitVec.ofNat 35 (w % 2 ^ nbits)) := rfl
  have hport : (s.withFetchWord nbits w).portTick = { s with busy := false, rstIn := s.rstIn.tail } := rfl
  rw [step_of_accepted ha, accept_of_decode (decode_of_decodeTableWord h), hport]

/-- Settles O58: the outputs are read off the registers, and an idle tick is the host's side of it. -/
theorem outputsMirrorRegisters : Obligations.OutputsMirrorRegisters := by
  unfold Obligations.OutputsMirrorRegisters
  exact ⟨fun _ => ⟨rfl, rfl, rfl, rfl, rfl, rfl⟩, fun s hr hb ha => ⟨s.portTick, step_of_idle hr hb ha, rfl⟩⟩

end Sys2Proof.Machine
end

section
/-! SUPPORT. The movement commands of a configured block from the tick of their acceptance to their end
(spec/43_step_commands.md R122 to R128, spec/70_reset_and_hazards.md R190, R193, R199). -/

namespace Sys2Proof.Machine

/-! ### The tick of the acceptance -/

theorem magnitude_eq_zero_iff {count : Int} (hwf : (Instr.stepN count).wf = true) :
    magnitude count = 0#32 ↔ count = 0 := by
  rw [← BitVec.toNat_inj, magnitude_toNat_of_wf count hwf]
  exact Int.natAbs_eq_zero

/-- At most half a step rounds to none (R127). -/
theorem angleSteps_eq_zero_of_le {angle : Int} (h : angle.natAbs ≤ 22) : angleSteps angle = 0#32 := by
  apply BitVec.eq_of_toNat_eq
  rw [angleSteps_toNat_of_le (by omega)]
  exact Nat.div_eq_of_lt (by omega)

theorem angleSteps_ne_zero_of_lt {angle : Int} (hwf : (Instr.stepAngle angle).wf = true) (h : 22 < angle.natAbs) :
    angleSteps angle ≠ 0#32 := by
  intro hzero
  have hsteps := angleSteps_toNat_of_wf angle hwf
  rw [hzero, BitVec.toNat_zero] at hsteps
  omega

/-- Settles O19: each command is the acceptance of its move, which differs by whether there is a step to run. -/
theorem movesAreAcceptedInOneTick : Obligations.MovesAreAcceptedInOneTick := by
  unfold Obligations.MovesAreAcceptedInOneTick
  intro s hc
  have hexec {i : Instr} {n : Word} {d : Direction} {rest : Bool} (hm : moveOf i = some (n, d, rest)) :
      exec i s = .next (acceptMove n d rest s) := (exec_of_moveOf i n d rest s hm hc).1
  refine ⟨fun d => ?_, fun count hwf hne => ?_, ?_, fun angle hwf hlt => ?_, fun angle hle => ?_⟩
  · exact (hexec rfl).trans (congrArg _ (acceptMove_of_ne_zero (by decide) d false s))
  · have hn : magnitude count ≠ 0#32 := (magnitude_eq_zero_iff hwf).not.mpr hne
    exact (hexec rfl).trans (congrArg _ (acceptMove_of_ne_zero hn (signDirection count) false s))
  · exact hexec (i := .stepN 0) rfl
  · have hn := angleSteps_ne_zero_of_lt hwf hlt
    exact (hexec rfl).trans (congrArg _ (acceptMove_of_ne_zero hn (signDirection angle) true s))
  · rw [hexec rfl, angleSteps_eq_zero_of_le hle]
    rfl

theorem magnitude_one : magnitude 1 = 1#32 ∧ magnitude (-1) = 1#32 := by decide

theorem signDirection_one : signDirection 1 = .forward ∧ signDirection (-1) = .reverse := by decide

/-- Settles O23: the two commands are the same move, on a block configured or not. -/
theorem stepNOfOneIsOneStep : Obligations.StepNOfOneIsOneStep := by
  unfold Obligations.StepNOfOneIsOneStep
  intro s
  obtain ⟨hforward, hreverse⟩ := signDirection_one
  obtain ⟨hone, hminus⟩ := magnitude_one
  constructor
  · simp only [exec, execStepN, execOneStep, hone, hforward]
  · simp only [exec, execStepN, execOneStep, hminus, hreverse]

/-! ### The move to its end -/

/-- The acceptance of a move of at least one step sets `BUSY`, whatever it was. -/
theorem acceptMove_of_busy_cleared {n : Word} {s : State} (h : n = 0#32 → s.busy = false) (d : Direction) (rest : Bool) :
    acceptMove n d rest { s with busy := false } = acceptMove n d rest s := by
  by_cases hn : n = 0#32
  · rw [← h hn]
  · rw [acceptMove_of_ne_zero hn, acceptMove_of_ne_zero hn]

/-- What the command level sees of a configured block when a move of `n` steps from `s` is over and the index is `p`
(R122, R128). -/
def movedView (n : Word) (d : Direction) (rest : Bool) (s : State) (len : Nat) (p : BitVec 3) : CommandView where
  configured := true
  mode := s.mode
  phase := p
  dwell := s.dwell
  lines :=
    if rest then 0#4
    else if n = 0#32 then s.lines
    else row s.mode (moveIndex len d s.phase.toNat (n.toNat - 1))
  status := 0#2
  trace := s.trace ++ stepEvents s.mode s.dwell.toNat (moveIndex len d s.phase.toNat) n.toNat ++
    (if rest then [.W 0#4] else [])

/-- A movement command on a configured block is accepted and, `n * (DWELL + 2)` ticks later, complete (R193). A block in a
move accepts nothing, so a move of no step starts from an idle block. -/
theorem exec_move_completes {i : Instr} {n : Word} {d : Direction} {rest : Bool} {s : State} {len : Nat}
    (hm : moveOf i = some (n, d, rest)) (hc : s.configured = true) (hidle : n = 0#32 → s.busy = false)
    (hl : tableLen s.mode = some len) (hp : s.phase.toNat < len) (hn : NoReset (n.toNat * (s.dwell.toNat + 2)) s) :
    ∃ t u p, exec i s = .next t ∧ runTicks (n.toNat * (s.dwell.toNat + 2)) t = .next u ∧ u.busy = false ∧
      p.toNat = moveIndex len d s.phase.toNat n.toNat ∧ u.commandView = movedView n d rest s len p := by
  obtain ⟨p, u, hphase, hrun, hbusy, hview, _⟩ :=
    runTicks_acceptMove n d rest (s := { s with busy := false }) rfl hl hp hn
  rw [acceptMove_of_busy_cleared hidle] at hrun
  refine ⟨_, u, p, (exec_of_moveOf i n d rest s hm hc).1, hrun, hbusy, hphase, hview.trans ?_⟩
  rw [finishMove_commandView]
  cases rest <;> simp [State.commandView, movedView, hc]

theorem stepEvents_one (m : BitVec 2) (dwell : Nat) (r : Nat → Nat) :
    stepEvents m dwell r 1 = [.W (row m (r 0)), .H dwell] := rfl

/-- Settles O20: a move of one step, which writes the row at the index as it was. -/
theorem oneStepRunsToCompletion : Obligations.OneStepRunsToCompletion := by
  unfold Obligations.OneStepRunsToCompletion
  intro d s len hc hl hp hn
  have hlen : (1#32).toNat * (s.dwell.toNat + 2) = s.dwell.toNat + 2 := Nat.one_mul _
  obtain ⟨t, u, p, hexec, hrun, hbusy, hphase, hview⟩ :=
    exec_move_completes (i := .oneStep d) rfl hc nofun hl hp (by rwa [hlen])
  rw [hlen] at hrun
  have hrow : moveIndex len d s.phase.toNat 0 = s.phase.toNat := moveIndex_zero d hp
  refine ⟨t, u, hexec, hrun, hbusy, ?_, ?_, ?_, congrArg CommandView.status hview,
    congrArg CommandView.configured hview, congrArg CommandView.mode hview, congrArg CommandView.dwell hview⟩
  · exact (congrArg (·.phase.toNat) hview).trans hphase
  · exact (congrArg CommandView.lines hview).trans (congrArg (row s.mode) hrow)
  · calc u.trace
        = s.trace ++ stepEvents s.mode s.dwell.toNat (moveIndex len d s.phase.toNat) 1 ++ [] :=
          congrArg CommandView.trace hview
      _ = s.trace ++ [.W (row s.mode s.phase.toNat), .H s.dwell.toNat] := by
          rw [List.append_nil, stepEvents_one, hrow]

/-- Settles O21: a move of `abs(count)` steps without a closing de-energize. -/
theorem stepNRunsToCompletion : Obligations.StepNRunsToCompletion := by
  unfold Obligations.StepNRunsToCompletion
  intro count s len hwf hc hidle hl hp hn
  have hmag := magnitude_toNat_of_wf count hwf
  obtain ⟨t, u, p, hexec, hrun, hbusy, hphase, hview⟩ :=
    exec_move_completes (i := .stepN count) rfl hc (fun _ => hidle) hl hp (hmag.symm ▸ hn)
  rw [hmag] at hrun hphase
  refine ⟨t, u, hexec, hrun, hbusy, (congrArg (·.phase.toNat) hview).trans hphase, ?_, ?_,
    congrArg CommandView.status hview, congrArg CommandView.configured hview, congrArg CommandView.mode hview,
    congrArg CommandView.dwell hview⟩
  · refine (congrArg CommandView.lines hview).trans ?_
    simp only [movedView, Bool.false_eq_true, if_false, magnitude_eq_zero_iff hwf, hmag]
  · refine (congrArg CommandView.trace hview).trans ?_
    simp only [movedView, Bool.false_eq_true, if_false, List.append_nil, hmag]

/-- Settles O22: a move of `n` steps with its closing de-energize. -/
theorem stepAngleRunsToCompletion : Obligations.StepAngleRunsToCompletion := by
  unfold Obligations.StepAngleRunsToCompletion
  intro angle s len n hwf hc hidle hl hp hsteps hn
  have hangle : (angleSteps angle).toNat = n := (angleSteps_toNat_of_wf angle hwf).trans hsteps.symm
  obtain ⟨t, u, p, hexec, hrun, hbusy, hphase, hview⟩ :=
    exec_move_completes (i := .stepAngle angle) rfl hc (fun _ => hidle) hl hp (hangle.symm ▸ hn)
  rw [hangle] at hrun hphase
  refine ⟨t, u, hexec, hrun, hbusy, (congrArg (·.phase.toNat) hview).trans hphase, congrArg CommandView.lines hview, ?_,
    congrArg CommandView.status hview, congrArg CommandView.configured hview, congrArg CommandView.mode hview,
    congrArg CommandView.dwell hview⟩
  refine (congrArg CommandView.trace hview).trans ?_
  simp only [movedView, if_true, hangle]

/-! ### From one step of a move to the next -/

/-- Settles O39: one whole step of a move that owes another. -/
theorem stepPeriodIsDwellPlusTwo : Obligations.StepPeriodIsDwellPlusTwo := by
  unfold Obligations.StepPeriodIsDwellPlusTwo
  intro s len hb hsub hremain hl hp hn
  obtain ⟨q, hrun⟩ := runTicks_oneStep s len hb hsub hl hp hn
  have howed : s.remain - 1#32 ≠ 0#32 := by bv_omega
  rw [if_pos howed] at hrun
  exact ⟨_, hrun, hb, rfl, rfl, rfl, nextIndex_toNat hl s.dir s.phase hp⟩

/-! ### Turning back -/

/-- STEP_N on a configured block at the command level: `command_stepN` with the events it appends (R122, R124). -/
theorem command_stepN_trace {n : Int} {s t : State} {len : Nat} (hwf : (Instr.stepN n).wf = true)
    (hc : s.configured = true) (hl : tableLen s.mode = some len) (hp : s.phase.toNat < len)
    (h : command (.stepN n) s = .next t) :
    t.dwell = s.dwell ∧ t.trace = s.trace ++
      stepEvents s.mode s.dwell.toNat (moveIndex len (signDirection n) s.phase.toNat) n.natAbs := by
  obtain ⟨p, tm, _, hrun⟩ := runMove_eq (magnitude n) (signDirection n) false (s := setOk s) hl hp
  obtain rfl := Host.Outcome.next.inj ((commandMove_of_runMove hc hrun).symm.trans h)
  rw [magnitude_toNat_of_wf n hwf]
  exact ⟨finishMove_dwell _, finishMove_trace _⟩

/-- Two STEP_N in a row: the second starts at the index where the first ended. -/
theorem command_stepN_twice {a b : Int} {s : State} {len : Nat} (ha : (Instr.stepN a).wf = true)
    (hb : (Instr.stepN b).wf = true) (hne : a ≠ 0) (hc : s.configured = true) (hl : tableLen s.mode = some len)
    (hp : s.phase.toNat < len) :
    ∃ t u, command (.stepN a) s = .next t ∧
      t.lines = row s.mode (moveIndex len (signDirection a) s.phase.toNat (a.natAbs - 1)) ∧
      command (.stepN b) t = .next u ∧
      u.trace = t.trace ++ stepEvents s.mode s.dwell.toNat
        (moveIndex len (signDirection b) (moveIndex len (signDirection a) s.phase.toNat a.natAbs)) b.natAbs ∧
      u.phase.toNat =
        moveIndex len (signDirection b) (moveIndex len (signDirection a) s.phase.toNat a.natAbs) b.natAbs ∧
      (b ≠ 0 → u.lines = row s.mode (moveIndex len (signDirection b)
        (moveIndex len (signDirection a) s.phase.toNat a.natAbs) (b.natAbs - 1))) := by
  obtain ⟨t, ht, htc, htm, htp, htlines⟩ := command_stepN ha hc hl hp
  have htl : tableLen t.mode = some len := htm ▸ hl
  have htlt : t.phase.toNat < len := htp ▸ moveIndex_lt (tableLen_pos hl) _ _ _
  obtain ⟨u, hu, _, _, hup, hulines⟩ := command_stepN hb htc htl htlt
  obtain ⟨htd, _⟩ := command_stepN_trace ha hc hl hp ht
  obtain ⟨_, hutrace⟩ := command_stepN_trace hb htc htl htlt hu
  rw [htm, htd, htp] at hutrace
  rw [htm, htp] at hulines
  exact ⟨t, u, ht, htlines hne, hu, hutrace, htp ▸ hup, hulines⟩

/-- The row of a step back after steps forward: the index has gone one beyond the row `i` last written (R129). -/
theorem moveIndex_after_forward {m : BitVec 2} {len : Nat} (hl : tableLen m = some len) (p j k : Nat) :
    moveIndex len .reverse (moveIndex len .forward p (j + 1)) k =
      (((moveIndex len .forward p j : Int) + 2 - (k + 1)) % len).toNat := by
  obtain ⟨_, rfl | rfl⟩ := tableLen_cases hl <;> simp only [moveIndex] <;> omega

/-- The row of a step forward after steps back (R129). -/
theorem moveIndex_after_reverse {m : BitVec 2} {len : Nat} (hl : tableLen m = some len) (p j k : Nat) :
    moveIndex len .forward (moveIndex len .reverse p (j + 1)) k =
      (((moveIndex len .reverse p j : Int) - 2 + (k + 1)) % len).toNat := by
  obtain ⟨_, rfl | rfl⟩ := tableLen_cases hl <;> simp only [moveIndex] <;> omega

/-- The last of `k + 1` steps forward writes the row before the one the steps back began with (R129). -/
theorem moveIndex_last_step_forward {m : BitVec 2} {len p : Nat} (hl : tableLen m = some len) (hp : p < len) (k : Nat) :
    moveIndex len .forward (moveIndex len .reverse p (k + 1)) k = (p + len - 1) % len := by
  rw [← moveIndex_succ (tableLen_cases hl).2 .reverse hp k,
    moveIndex_forward_reverse (moveIndex_lt (tableLen_pos hl) .reverse p 1), moveIndex_reverse_one hl]

theorem signDirection_natCast (n : Nat) : signDirection n = .forward := signDirection_of_nonneg (Int.natCast_nonneg n)

theorem signDirection_neg_natCast {n : Nat} (h : 0 < n) : signDirection (-n) = .reverse :=
  signDirection_of_neg (by omega)

/-- Settles O27: each half is two STEP_N in a row, whose rows are those of `moveIndex` there and back. -/
theorem reversalWritesOneRowFurther : Obligations.ReversalWritesOneRowFurther := by
  unfold Obligations.ReversalWritesOneRowFurther
  intro n m s len hpos hn hm hc hl hp
  obtain ⟨j, rfl⟩ : ∃ j, n = j + 1 := Nat.exists_eq_add_one.mpr hpos
  have hwf (k : Nat) (hk : k < 2 ^ 31) : (Instr.stepN k).wf = true ∧ (Instr.stepN (-k)).wf = true :=
    ⟨stepN_wf (by omega) (by omega), stepN_wf (by omega) (by omega)⟩
  have hfirst := signDirection_natCast (j + 1)
  have hfirst' := signDirection_neg_natCast hpos
  constructor
  · obtain ⟨t, u, ht, htlines, hu, hutrace, hup, hulines⟩ :=
      command_stepN_twice (hwf _ hn).1 (hwf m hm).2 (by omega) hc hl hp
    rw [Int.natAbs_neg, Int.natAbs_natCast, Int.natAbs_natCast, hfirst] at hutrace hup hulines
    rw [Int.natAbs_natCast, hfirst] at htlines
    refine ⟨t, u, _, ht, htlines, rfl, hu, hutrace.trans (congrArg _ ?_), ?_⟩
    · refine stepEvents_congr _ _ _ _ m fun k hk => ?_
      rw [signDirection_neg_natCast (by omega)]
      exact moveIndex_after_forward hl _ j k
    · rintro rfl
      rw [hfirst'] at hup hulines
      exact ⟨BitVec.eq_of_toNat_eq (hup.trans (moveIndex_reverse_forward hp _)),
        (hulines (by omega)).trans (congrArg _ (moveIndex_last_step_back hl hp j))⟩
  · obtain ⟨t, u, ht, htlines, hu, hutrace, hup, hulines⟩ :=
      command_stepN_twice (hwf _ hn).2 (hwf m hm).1 (by omega) hc hl hp
    rw [Int.natAbs_neg, Int.natAbs_natCast, Int.natAbs_natCast, hfirst', signDirection_natCast] at hutrace hup hulines
    rw [Int.natAbs_neg, Int.natAbs_natCast, hfirst'] at htlines
    refine ⟨t, u, _, ht, htlines, rfl, hu, hutrace.trans (congrArg _ ?_), ?_⟩
    · exact stepEvents_congr _ _ _ _ m fun k _ => moveIndex_after_reverse hl _ j k
    · rintro rfl
      exact ⟨BitVec.eq_of_toNat_eq (hup.trans (moveIndex_forward_reverse hp _)),
        (hulines (by omega)).trans (congrArg _ (moveIndex_last_step_forward hl hp j))⟩

end Sys2Proof.Machine
end
